-- ==== Sys2Proof/Word.lean ====
section
/-! DEFINITION. The machine word and the three readings of it that every rule of spec/ uses
(00_scope.md R10). XLEN is fixed at 32 (00_scope.md R7, the spec's D4; log entry 5). -/

namespace Sys2Proof

/-- A word: an XLEN-bit value, held by every register, every MemoryBus word and the pc (R10, R15, R22, R38). -/
abbrev Word := BitVec 32

/-- `uint(w)` of R10: the word read as an unsigned integer in [0, 2^32). -/
abbrev uint (w : Word) : Nat := w.toNat

/-- `sint(w)` of R10: the word read as a two's-complement signed integer. -/
abbrev sint (w : Word) : Int := w.toInt

/-- `word(i)` of R10: the word whose `uint` is `i mod 2^32`; every wrap in the model is written with it. -/
abbrev word (i : Int) : Word := BitVec.ofInt 32 i

end Sys2Proof
end

