-- ==== Sys2Proof/Config.lean ====
section
/-! DEFINITION. The implementation parameters of 00_scope.md R7, their well-formedness (R8), and the one free
value of the model (the text of an error message). -/

namespace Sys2Proof

/-- The rows of R7 that a run may set. The defaults are R7's own values.
XLEN, INSTR_BYTES, LINK_REG, IMM_BITS and TARGET_BITS are constants below; PROG_LEN is the length of the
instruction store (log entries 1, 2, 5 and 11). -/
structure Config where
  /-- NUM_REGS -/
  numRegs        : Nat  := 32
  /-- R0_HARDWIRED (R17; 90_conflicts.md C1) -/
  r0Hardwired    : Bool := false
  /-- CAPACITY, in bytes -/
  capacity       : Nat  := 1048576
  /-- BLOCK_SIZE, in words -/
  blockSize      : Nat  := 16
  /-- NUM_LINES -/
  numLines       : Nat  := 64
  /-- IMPLICIT_HALT (R81; 90_conflicts.md C2) -/
  implicitHalt   : Bool := false
  /-- HALT_ADVANCES_PC (R105) -/
  haltAdvancesPc : Bool := false
deriving DecidableEq, Repr

/-- INSTR_BYTES of R7. -/
def instrBytes : Nat := 4

/-- LINK_REG of R7: "link register hard-coded to index 7" (R16). -/
def linkReg : Nat := 7

/-- IMM_BITS of R7: the width of an immediate or offset field. -/
def immBits : Nat := 16

/-- TARGET_BITS of R7: the width of a jump target field. -/
def targetBits : Nat := 26

namespace Config

/-- R7's defaults: the configuration of `State.reset`. -/
def default : Config := {}

/-- MEM_WORDS = CAPACITY / 4. -/
def memWords (c : Config) : Nat := c.capacity / 4

/-- WORD_ADDR_BITS = log2(MEM_WORDS). -/
def wordAddrBits (c : Config) : Nat := Nat.log2 c.memWords

/-- OFFSET_BITS = log2(BLOCK_SIZE). -/
def offsetBits (c : Config) : Nat := Nat.log2 c.blockSize

/-- INDEX_BITS = log2(NUM_LINES). -/
def indexBits (c : Config) : Nat := Nat.log2 c.numLines

/-- TAG_BITS = WORD_ADDR_BITS − OFFSET_BITS − INDEX_BITS. -/
def tagBits (c : Config) : Nat := c.wordAddrBits - c.offsetBits - c.indexBits

/-- `n` is a power of two, so that its `log2` is exact. -/
def isPowerOfTwo (n : Nat) : Bool := 2 ^ Nat.log2 n == n

/-- R8: the configurations the block is defined for (PROG_LEN ≥ 0 holds of every list). -/
def wf (c : Config) : Bool :=
  decide (8 ≤ c.numRegs) && decide (c.numRegs ≤ 32) &&
  isPowerOfTwo c.capacity && (c.capacity % 4 == 0) &&
  isPowerOfTwo c.blockSize && isPowerOfTwo c.numLines &&
  decide (c.offsetBits + c.indexBits ≤ c.wordAddrBits)

/-- FREE VALUE (60_exceptions.md R111, 93_implementation_defined.md U9): the text of the n-th error message.
It has no body, so no proof can read it; the step that raises an error applies it to the model's own counter
`State.freeCount` (log entry 6). -/
opaque errorMessage : Nat → String

end Config

end Sys2Proof
end

