-- ==== Sys2Proof/Syntax.lean ====
section
/-! DEFINITION. The thirteen instructions of the CPUSIM ISA (30_encoding.md R69, R71), one constructor for each
row of spec/opcode_table.json, operands in the order of the decoded record.

Fields are the mathematical values of R68 (a register index, a target: a natural number; an immediate, an
offset, the CACHE code: an integer), so that an ill-formed operand is a term WellFormed can refuse. -/

namespace Sys2Proof

/-- A decoded instruction. -/
inductive Instr where
  /-- `ADD Rd,Rs,Rt` (R88) -/
  | add   (rd rs rt : Nat)
  /-- `ADDI Rt,Rs,immd` (R89) -/
  | addi  (rt rs : Nat) (immd : Int)
  /-- `SUB Rd,Rs,Rt` (R90) -/
  | sub   (rd rs rt : Nat)
  /-- `SUBI Rd,Rs,immd` (R91) -/
  | subi  (rd rs : Nat) (immd : Int)
  /-- `SLT Rd,Rs,Rt` (R92) -/
  | slt   (rd rs rt : Nat)
  /-- `BNE Rs,Rt,offset` (R94); the offset counts instructions -/
  | bne   (rs rt : Nat) (offset : Int)
  /-- `J target` (R95); the target is an absolute instruction index -/
  | j     (target : Nat)
  /-- `JAL target` (R96) -/
  | jal   (target : Nat)
  /-- `LW Rt,offset(Rs)` (R100); the offset counts bytes -/
  | lw    (rt : Nat) (offset : Int) (rs : Nat)
  /-- `SW Rt,offset(Rs)` (R101) -/
  | sw    (rt : Nat) (offset : Int) (rs : Nat)
  /-- `CACHE code` (R102); 0 disable, 1 enable, 2 flush -/
  | cache (code : Int)
  /-- `NOP` (R104) -/
  | nop
  /-- `HALT` (R105) -/
  | halt
deriving DecidableEq, Repr

end Sys2Proof
end

