-- ==== Sys2Proof/WellFormed.lean ====
section
/-! DEFINITION. Which instructions the core can hold: the operand ranges of 30_encoding.md R68 and R70. -/

namespace Sys2Proof

/-- R68, register index: in [0, NUM_REGS). -/
def regInRange (c : Config) (r : Nat) : Bool := decide (r < c.numRegs)

/-- R68, immediate and offset: in [−2^(IMM_BITS−1), 2^(IMM_BITS−1)). -/
def immInRange (i : Int) : Bool :=
  decide (-(2 : Int) ^ (immBits - 1) ≤ i) && decide (i < (2 : Int) ^ (immBits - 1))

/-- R68, target: in [0, 2^TARGET_BITS). -/
def targetInRange (t : Nat) : Bool := decide (t < 2 ^ targetBits)

/-- R70, the CACHE code: 0, 1 or 2. -/
def codeInRange (k : Int) : Bool := k == 0 || k == 1 || k == 2

/-- R70: every field of the instruction is well typed. -/
def Instr.wf (c : Config) : Instr → Bool
  | .add rd rs rt | .sub rd rs rt | .slt rd rs rt => regInRange c rd && regInRange c rs && regInRange c rt
  | .addi rt rs immd | .subi rt rs immd => regInRange c rt && regInRange c rs && immInRange immd
  | .bne rs rt offset => regInRange c rs && regInRange c rt && immInRange offset
  | .j target | .jal target => targetInRange target
  | .lw rt offset rs | .sw rt offset rs => regInRange c rt && regInRange c rs && immInRange offset
  | .cache code => codeInRange code
  | .nop | .halt => true

end Sys2Proof
end

