-- ==== Sys2Proof/Decode.lean ====
section
/-! DEFINITION. The two inputs of the core, the decoded record (30_encoding.md R67 to R70) and the 32-bit
instruction word (R72 to R80), the decoder of each, and after them the encoder of each.

Decoding is total: every record and every word is unknown, malformed, or one well-formed instruction (R80). -/

namespace Sys2Proof

/-! ### The decoded record -/

/-- The thirteen opcodes of R71. -/
inductive Opcode where
  | add | addi | sub | subi | slt | bne | j | jal | lw | sw | cache | nop | halt
deriving DecidableEq, Repr

/-- The opcode field of a record: one of the thirteen, or a value the core does not know (R67). -/
inductive OpcodeField where
  | known (o : Opcode)
  | unknown
deriving DecidableEq, Repr

/-- The four kinds of operand of R68. -/
inductive OperandKind where
  | reg | imm | offset | target
deriving DecidableEq, Repr

/-- A typed field of a record (R67, R68). Its value is any integer: the loader does not have to reject an
out-of-range one (70_reset_and_hazards.md R131). -/
inductive Operand where
  | reg    (n : Int)
  | imm    (n : Int)
  | offset (n : Int)
  | target (n : Int)
deriving DecidableEq, Repr

/-- "a decoded record of opcode: enum, operands: ordered list of typed fields" (R67). -/
structure Record where
  opcode   : OpcodeField
  operands : List Operand
deriving DecidableEq, Repr

/-- One entry of the instruction store: a decoded record, or (the spec's word level) a 32-bit instruction word
(10_state.md R32, 30_encoding.md R72; the spec's D1 and D2; log entry 2). -/
inductive Entry where
  | record (r : Record)
  | word   (w : Word)
deriving DecidableEq, Repr

/-- What decoding an entry answers (R80): no opcode the core knows, a known opcode with malformed operands, or
a well-formed instruction. -/
inductive Decoded where
  | unknown
  | malformed (o : Opcode)
  | instr (i : Instr)
deriving DecidableEq, Repr

/-- The kind of an operand. -/
def Operand.kind : Operand → OperandKind
  | .reg _ => .reg
  | .imm _ => .imm
  | .offset _ => .offset
  | .target _ => .target

/-- R68: a field is well typed when its value lies in its kind's range. -/
def Operand.wellTyped (c : Config) : Operand → Bool
  | .reg n => decide (0 ≤ n) && regInRange c n.toNat
  | .imm n => immInRange n
  | .offset n => immInRange n
  | .target n => decide (0 ≤ n) && targetInRange n.toNat

/-- R69: the operand kinds of each opcode, in the record's order. -/
def Opcode.shape : Opcode → List OperandKind
  | .add | .sub | .slt => [.reg, .reg, .reg]
  | .addi | .subi => [.reg, .reg, .imm]
  | .bne => [.reg, .reg, .offset]
  | .j | .jal => [.target]
  | .lw | .sw => [.reg, .offset, .reg]
  | .cache => [.imm]
  | .nop | .halt => []

/-- The instruction a record of the right shape spells (R69); none for any other shape. -/
def buildInstr (o : Opcode) (ops : List Operand) : Option Instr :=
  match o, ops with
  | .add,   [.reg d, .reg s, .reg t]    => some (.add d.toNat s.toNat t.toNat)
  | .sub,   [.reg d, .reg s, .reg t]    => some (.sub d.toNat s.toNat t.toNat)
  | .slt,   [.reg d, .reg s, .reg t]    => some (.slt d.toNat s.toNat t.toNat)
  | .addi,  [.reg t, .reg s, .imm n]    => some (.addi t.toNat s.toNat n)
  | .subi,  [.reg d, .reg s, .imm n]    => some (.subi d.toNat s.toNat n)
  | .bne,   [.reg s, .reg t, .offset n] => some (.bne s.toNat t.toNat n)
  | .j,     [.target n]                 => some (.j n.toNat)
  | .jal,   [.target n]                 => some (.jal n.toNat)
  | .lw,    [.reg t, .offset n, .reg s] => some (.lw t.toNat n s.toNat)
  | .sw,    [.reg t, .offset n, .reg s] => some (.sw t.toNat n s.toNat)
  | .cache, [.imm k]                    => some (.cache k)
  | .nop,   []                          => some .nop
  | .halt,  []                          => some .halt
  | _, _ => none

/-- R70: the operand list has the opcode's shape, every field is well typed, and a CACHE code is 0, 1 or 2. -/
def operandsWf (c : Config) (o : Opcode) (ops : List Operand) : Bool :=
  decide (ops.map Operand.kind = o.shape) && ops.all (Operand.wellTyped c) &&
  (match o, ops with
   | .cache, [.imm k] => codeInRange k
   | _, _ => true)

/-- The record decoder (R67, R70, R81). -/
def decodeRecord (c : Config) (r : Record) : Decoded :=
  match r.opcode with
  | .unknown => .unknown
  | .known o =>
    match buildInstr o r.operands with
    | some i => if operandsWf c o r.operands then .instr i else .malformed o
    | none => .malformed o

/-! ### The fields of the instruction word -/

/-- `w[hi:lo]` of R9, read as an unsigned number. -/
def bits (hi lo : Nat) (w : Word) : Nat := w.toNat / 2 ^ lo % 2 ^ (hi + 1 - lo)

/-- `op`, bits 31:26 (R73 to R75). -/
def opField (w : Word) : Nat := bits 31 26 w
/-- `rs`, bits 25:21 (R73, R74). -/
def rsField (w : Word) : Nat := bits 25 21 w
/-- `rt`, bits 20:16 (R73, R74). -/
def rtField (w : Word) : Nat := bits 20 16 w
/-- `rd`, bits 15:11 (R73). -/
def rdField (w : Word) : Nat := bits 15 11 w
/-- `funct`, bits 5:0 (R73). -/
def functField (w : Word) : Nat := bits 5 0 w
/-- `imm16`, bits 15:0 (R74). -/
def immField (w : Word) : Nat := bits 15 0 w
/-- `target26`, bits 25:0 (R75). -/
def targetField (w : Word) : Nat := bits 25 0 w

/-- `sext_16` of R10 and R77: a 16-bit field read as two's complement. -/
def sext16 (v : Nat) : Int := if v < 2 ^ 15 then (v : Int) else (v : Int) - 2 ^ 16

/-- `zext_16` of R10 and R77: a 16-bit field read as an unsigned integer. -/
def zext16 (v : Nat) : Int := (v : Int)

/-! ### The word decoder -/

/-- One row of R76's table: the op number, the funct number where the row has one, and the fields
(high bit, low bit) that must be zero. -/
structure OpRow where
  opcode     : Opcode
  op         : Nat
  funct      : Option Nat
  mustBeZero : List (Nat × Nat)
deriving DecidableEq, Repr

/-- R76, row by row. -/
def opTable : List OpRow :=
  [ ⟨.nop,   0x00, some 0x00, [(25, 21), (20, 16), (15, 11), (10, 6)]⟩,
    ⟨.add,   0x00, some 0x20, [(10, 6)]⟩,
    ⟨.sub,   0x00, some 0x22, [(10, 6)]⟩,
    ⟨.slt,   0x00, some 0x2A, [(10, 6)]⟩,
    ⟨.j,     0x02, none, []⟩,
    ⟨.jal,   0x03, none, []⟩,
    ⟨.bne,   0x05, none, []⟩,
    ⟨.addi,  0x08, none, []⟩,
    ⟨.subi,  0x18, none, []⟩,
    ⟨.lw,    0x23, none, []⟩,
    ⟨.sw,    0x2B, none, []⟩,
    ⟨.cache, 0x2F, none, [(25, 21), (20, 16)]⟩,
    ⟨.halt,  0x3F, none, [(25, 0)]⟩ ]

/-- The row's op (and, for op 0, its funct) is the word's (R76). -/
def OpRow.selects (r : OpRow) (w : Word) : Bool :=
  opField w == r.op &&
  (match r.funct with
   | none => true
   | some f => functField w == f)

/-- R78: every must-be-zero field of the row is zero in the word. -/
def OpRow.zerosHold (r : OpRow) (w : Word) : Bool :=
  r.mustBeZero.all fun f => bits f.1 f.2 w == 0

/-- The row of R76 a word selects, if any. -/
def selectRow (w : Word) : Option OpRow := opTable.find? (·.selects w)

/-- R77: the operands of each instruction, from the word's fields. SUBI's destination is in the rt field. -/
def instrOfFields (o : Opcode) (w : Word) : Instr :=
  match o with
  | .add   => .add (rdField w) (rsField w) (rtField w)
  | .sub   => .sub (rdField w) (rsField w) (rtField w)
  | .slt   => .slt (rdField w) (rsField w) (rtField w)
  | .addi  => .addi (rtField w) (rsField w) (sext16 (immField w))
  | .subi  => .subi (rtField w) (rsField w) (sext16 (immField w))
  | .bne   => .bne (rsField w) (rtField w) (sext16 (immField w))
  | .j     => .j (targetField w)
  | .jal   => .jal (targetField w)
  | .lw    => .lw (rtField w) (sext16 (immField w)) (rsField w)
  | .sw    => .sw (rtField w) (sext16 (immField w)) (rsField w)
  | .cache => .cache (zext16 (immField w))
  | .nop   => .nop
  | .halt  => .halt

/-- The word decoder (R80): no row, unknown (R79); a row whose zeros or ranges fail, malformed (R78);
else the instruction of R77. -/
def decodeWord (c : Config) (w : Word) : Decoded :=
  match selectRow w with
  | none => .unknown
  | some r =>
    if r.zerosHold w && (instrOfFields r.opcode w).wf c then .instr (instrOfFields r.opcode w)
    else .malformed r.opcode

/-- Decoding an entry of the instruction store, at whichever level it is held (R81). -/
def decodeEntry (c : Config) : Entry → Decoded
  | .record r => decodeRecord c r
  | .word w => decodeWord c w

/-- The host's reading of the decoder: a word numbered as spec/opcode_table.json numbers it (the whole
instruction is one 32-bit word; log entry 12), under the default configuration. -/
def decodeTableWord (nbits w : Nat) : Option Instr :=
  match decodeWord Config.default (BitVec.ofNat 32 (w % 2 ^ nbits)) with
  | .instr i => some i
  | .malformed _ => none
  | .unknown => none

/-! ### The encoder -/

/-- R73, with op 0 and shamt 0. -/
def rFormat (rs rt rd funct : Nat) : Word :=
  BitVec.ofNat 32 (rs * 2 ^ 21 + rt * 2 ^ 16 + rd * 2 ^ 11 + funct)

/-- R74. -/
def iFormat (op rs rt imm16 : Nat) : Word :=
  BitVec.ofNat 32 (op * 2 ^ 26 + rs * 2 ^ 21 + rt * 2 ^ 16 + imm16)

/-- R75. -/
def jFormat (op target26 : Nat) : Word := BitVec.ofNat 32 (op * 2 ^ 26 + target26)

/-- The 16-bit field that holds an immediate, an offset or a CACHE code: its residue modulo 2^16 (R77 inverted). -/
def imm16 (i : Int) : Nat := (i % 2 ^ 16).toNat

/-- The word of a well-formed instruction: R77 inverted, must-be-zero fields 0 (R80). -/
def encode : Instr → Word
  | .nop              => rFormat 0 0 0 0x00
  | .add rd rs rt     => rFormat rs rt rd 0x20
  | .sub rd rs rt     => rFormat rs rt rd 0x22
  | .slt rd rs rt     => rFormat rs rt rd 0x2A
  | .j target         => jFormat 0x02 target
  | .jal target       => jFormat 0x03 target
  | .bne rs rt offset => iFormat 0x05 rs rt (imm16 offset)
  | .addi rt rs immd  => iFormat 0x08 rs rt (imm16 immd)
  | .subi rd rs immd  => iFormat 0x18 rs rd (imm16 immd)
  | .lw rt offset rs  => iFormat 0x23 rs rt (imm16 offset)
  | .sw rt offset rs  => iFormat 0x2B rs rt (imm16 offset)
  | .cache code       => iFormat 0x2F 0 0 (imm16 code)
  | .halt             => jFormat 0x3F 0

/-- The opcode of an instruction. -/
def Instr.opcode : Instr → Opcode
  | .add _ _ _ => .add
  | .addi _ _ _ => .addi
  | .sub _ _ _ => .sub
  | .subi _ _ _ => .subi
  | .slt _ _ _ => .slt
  | .bne _ _ _ => .bne
  | .j _ => .j
  | .jal _ => .jal
  | .lw _ _ _ => .lw
  | .sw _ _ _ => .sw
  | .cache _ => .cache
  | .nop => .nop
  | .halt => .halt

/-- The operand list of an instruction, in the order of R69. -/
def Instr.operands : Instr → List Operand
  | .add rd rs rt     => [.reg rd, .reg rs, .reg rt]
  | .sub rd rs rt     => [.reg rd, .reg rs, .reg rt]
  | .slt rd rs rt     => [.reg rd, .reg rs, .reg rt]
  | .addi rt rs immd  => [.reg rt, .reg rs, .imm immd]
  | .subi rd rs immd  => [.reg rd, .reg rs, .imm immd]
  | .bne rs rt offset => [.reg rs, .reg rt, .offset offset]
  | .j target         => [.target target]
  | .jal target       => [.target target]
  | .lw rt offset rs  => [.reg rt, .offset offset, .reg rs]
  | .sw rt offset rs  => [.reg rt, .offset offset, .reg rs]
  | .cache code       => [.imm code]
  | .nop              => []
  | .halt             => []

/-- The record that spells an instruction (R67, R69). -/
def Instr.toRecord (i : Instr) : Record := ⟨.known i.opcode, i.operands⟩

end Sys2Proof
end

