-- ==== Sys2Proof/Machine/State.lean ====
section
/-! DEFINITION. The machine's state as plain data (10_state.md R13), with the parameters of a run it carries
(R14), the reasons a step can stop, and the state after reset (R35). -/

namespace Sys2Proof.Machine

/-- The three kinds of fatal error (60_exceptions.md R107). -/
inductive ErrorKind where
  | addressError
  | decodeError
  | executionError
deriving DecidableEq, Repr

/-- The error record (60_exceptions.md R111). `message` is a free value no claim may read (U9; log entry 6). -/
structure ErrorRecord where
  kind        : ErrorKind
  message     : String
  pcAtFailure : Word
deriving DecidableEq, Repr

/-- The run status; the error record exists exactly in ERROR (10_state.md R26). -/
inductive Status where
  | running
  | halted
  | error (r : ErrorRecord)
deriving DecidableEq, Repr

/-- One cache line (10_state.md R29). -/
structure CacheLine where
  valid : Bool
  dirty : Bool
  tag   : Nat
  data  : List Word
deriving DecidableEq, Repr

/-- The MemoryBus (10_state.md R31) as the list of its non-zero words: (word index, word) pairs, indices strictly
rising, no entry equal to `word(0)`, which every unlisted index reads as (20_memory.md R39; log entry 3).
Words, not bytes: no byte order exists and none may be exposed (R57, U13). -/
structure Memory where
  cells : List (Nat × Word)
deriving DecidableEq, Repr

/-- The state of the block. -/
structure State where
  /-- the configuration of 00_scope.md R7; a parameter of the run, no step changes it (R14; log entry 1) -/
  cfg       : Config
  /-- the instruction store; a parameter of the run, no step changes it (R14, R32; log entry 2) -/
  imem      : List Entry
  /-- `x[0..NUM_REGS−1]` (R15); read and written only through `readReg` and `writeReg` -/
  regs      : List Word
  /-- the program counter (R22) -/
  pc        : Word
  /-- the run status with its error record (R26) -/
  status    : Status
  /-- `cache_on` (R27) -/
  cacheOn   : Bool
  /-- `line[0..NUM_LINES−1]` (R29) -/
  lines     : List CacheLine
  /-- `mem[0..MEM_WORDS−1]` (R31) -/
  mem       : Memory
  /-- the MODEL's own field: how many free values the run has taken (log entry 6) -/
  freeCount : Nat
deriving DecidableEq, Repr

/-- Why no step is possible. -/
inductive Fault where
  /-- Raised by `step` alone, when `status` is HALTED: a terminal state is final (60_exceptions.md R113, U16).
  Safe: the machine takes no step there either (log entry 7). -/
  | halted
  /-- Raised by `step` alone, when `status` is ERROR (60_exceptions.md R113, U15).
  Safe: the machine takes no step there either (log entry 7). -/
  | errored
deriving DecidableEq, Repr

/-- Why the model gives no meaning. -/
inductive Refusal where
  /-- Raised by an arm of `exec` whose instruction has no meaning yet; no arm is in this state. Safe. -/
  | notModelled (mnemonic : String)
  /-- Raised by `step` alone, when `cfg` breaks 00_scope.md R8: "the block is defined only for well-formed
  configurations". Safe: nothing is claimed there (log entry 9). -/
  | illFormedConfig
deriving DecidableEq, Repr

/-- A cache line after reset: invalid, clean, tag 0, data 0 (10_state.md R35). -/
def CacheLine.reset (c : Config) : CacheLine :=
  { valid := false, dirty := false, tag := 0, data := List.replicate c.blockSize 0#32 }

/-- The empty list of cells: every word 0 (20_memory.md R39). -/
def Memory.zero : Memory := ⟨[]⟩

/-- The state after reset under a configuration, with an instruction store and a MemoryBus (10_state.md R35). -/
def State.resetWith (c : Config) (prog : List Entry) (m : Memory) : State :=
  { cfg := c
    imem := prog
    regs := List.replicate c.numRegs 0#32
    pc := 0#32
    status := .running
    cacheOn := false
    lines := List.replicate c.numLines (CacheLine.reset c)
    mem := m
    freeCount := 0 }

/-- The machine right after reset, with the default configuration, no program loaded and no word of the
MemoryBus mapped (10_state.md R35, 70_reset_and_hazards.md R127; log entries 2 and 4). -/
def State.reset : State := State.resetWith Config.default [] Memory.zero

end Sys2Proof.Machine
end

