-- ==== Sys2Proof/Machine/Bus.lean ====
section
/-! DEFINITION. The MemoryBus (20_memory.md R36 to R42): one word of memory read and written, the canonical form
of the list of cells, address validity, and the capability load_word, store_word (R56) with its block forms. -/

namespace Sys2Proof.Machine

/-! ### The store of words -/

/-- The word a list of cells holds at an index; an unlisted index reads as `word(0)` (R39; log entry 3). -/
def readCells : List (Nat × Word) → Nat → Word
  | [], _ => 0#32
  | (a, x) :: rest, w => if a = w then x else readCells rest w

/-- A cell in front of a list, left out when its word is what an unlisted index reads as. -/
def putCell (w : Nat) (v : Word) (rest : List (Nat × Word)) : List (Nat × Word) :=
  if v = 0#32 then rest else (w, v) :: rest

/-- Overwriting one word in a list of cells, keeping indices rising and no cell zero. -/
def writeCells (w : Nat) (v : Word) : List (Nat × Word) → List (Nat × Word)
  | [] => putCell w v []
  | (a, x) :: rest =>
    if w < a then putCell w v ((a, x) :: rest)
    else if w = a then putCell w v rest
    else (a, x) :: writeCells w v rest

/-- `mem[w]`. -/
def Memory.read (m : Memory) (w : Nat) : Word := readCells m.cells w

/-- `mem[w] <- v`. -/
def Memory.write (m : Memory) (w : Nat) (v : Word) : Memory := ⟨writeCells w v m.cells⟩

/-- Indices strictly rise and no cell holds `word(0)`. -/
def cellsWf : List (Nat × Word) → Bool
  | [] => true
  | c :: rest => (c.2 != 0#32) && rest.all (fun d => decide (c.1 < d.1)) && cellsWf rest

/-- The canonical form: equal memories are equal data. -/
def Memory.wf (m : Memory) : Bool := cellsWf m.cells

/-- Every listed index is a MemoryBus word's (R31). -/
def Memory.inRange (c : Config) (m : Memory) : Bool := m.cells.all fun d => decide (d.1 < c.memWords)

/-- `initialize(mapping)` of R39: bulk-sets words; those not present are `word(0)`. -/
def Memory.initialize (mapping : List (Nat × Word)) : Memory :=
  mapping.foldl (fun m d => m.write d.1 d.2) Memory.zero

/-! ### Word accesses -/

/-- `ValidAddr(b)` of R37: `b mod 4 = 0` and `0 ≤ b < CAPACITY`, on the exact integer. -/
def validAddr (c : Config) (b : Int) : Bool :=
  b % 4 == 0 && decide (0 ≤ b) && decide (b < c.capacity)

/-- The word index of a byte address: `b / 4` (R36). -/
def wordIndex (b : Int) : Nat := (b / 4).toNat

/-- `BusLoad(b)` of R40; none is its AddressError. -/
def busLoad (c : Config) (m : Memory) (b : Int) : Option Word :=
  if validAddr c b then some (m.read (wordIndex b)) else none

/-- `BusStore(b, v)` of R41; none is its AddressError. -/
def busStore (c : Config) (m : Memory) (b : Int) (v : Word) : Option Memory :=
  if validAddr c b then some (m.write (wordIndex b) v) else none

/-- `for o in 0 .. n−1: BusLoad(b + 4·o)` (R46). -/
def busLoadBlock (c : Config) (m : Memory) (b : Int) : Nat → Option (List Word)
  | 0 => some []
  | n + 1 =>
    match busLoad c m b, busLoadBlock c m (b + 4) n with
    | some v, some vs => some (v :: vs)
    | _, _ => none

/-- `for o in 0 .. : BusStore(b + 4·o, data[o])` (R46, R50). -/
def busStoreBlock (c : Config) (m : Memory) (b : Int) : List Word → Option Memory
  | [] => some m
  | v :: vs =>
    match busStore c m b v with
    | some m' => busStoreBlock c m' (b + 4) vs
    | none => none

end Sys2Proof.Machine
end

