-- ==== Sys2Proof/Machine/Cache.lean ====
section
/-! DEFINITION. The cache controller (20_memory.md R43 to R54): address decomposition, block base reconstruction,
hit detection, allocation with eviction and fill, read, write, flush, and the mode switch.

An operation answers none exactly where one of its bus accesses raises AddressError; it then has changed nothing
(60_exceptions.md R116). That the accesses of an eviction, a fill or a flush never do is R46's claim, and is
proved of the model, not built into it (log entry 13). -/

namespace Sys2Proof.Machine

/-! ### Addresses -/

/-- `offset` of R43. -/
def offsetOf (c : Config) (b : Int) : Nat := wordIndex b % c.blockSize

/-- `index` of R43. -/
def indexOf (c : Config) (b : Int) : Nat := wordIndex b / c.blockSize % c.numLines

/-- `tag` of R43. -/
def tagOf (c : Config) (b : Int) : Nat := wordIndex b / (c.blockSize * c.numLines)

/-- `base_word` of R44: `(tag << (offset_bits+index_bits)) | (index << offset_bits)`, the shift amounts the
configured ones. -/
def baseWord (c : Config) (tag index : Nat) : Nat :=
  (tag <<< (c.offsetBits + c.indexBits)) ||| (index <<< c.offsetBits)

/-- `base_byte` of R44. -/
def baseByte (c : Config) (tag index : Nat) : Int := (baseWord c tag index * 4 : Nat)

/-! ### Lines -/

/-- `line[i]`. -/
def lineAt (s : State) (i : Nat) : CacheLine := s.lines.getD i (CacheLine.reset s.cfg)

/-- `line[i] <- l`. -/
def setLine (s : State) (i : Nat) (l : CacheLine) : State := { s with lines := s.lines.set i l }

/-- The MemoryBus replaced by the one a bus operation answered. -/
def setMem (s : State) (m : Memory) : State := { s with mem := m }

/-- Hit detection (R45): only line `index(b)` is examined. -/
def hits (s : State) (b : Int) : Bool :=
  (lineAt s (indexOf s.cfg b)).valid && (lineAt s (indexOf s.cfg b)).tag == tagOf s.cfg b

/-- The write-back of line `i` (R46, R50): the whole block of a valid dirty line, nothing for any other. -/
def writeBack (c : Config) (m : Memory) (i : Nat) (l : CacheLine) : Option Memory :=
  if l.valid && l.dirty then busStoreBlock c m (baseByte c l.tag i) l.data else some m

/-! ### Operations -/

/-- `Allocate(i, t)` of R46: eviction, then block fill. -/
def allocate (s : State) (i t : Nat) : Option State :=
  match writeBack s.cfg s.mem i (lineAt s i) with
  | none => none
  | some m =>
    match busLoadBlock s.cfg m (baseByte s.cfg t i) s.cfg.blockSize with
    | none => none
    | some d => some (setLine (setMem s m) i { valid := true, dirty := false, tag := t, data := d })

/-- The line of `b` present: as it is on a hit, allocated on a miss (R47, R48). -/
def ensureLine (s : State) (b : Int) : Option State :=
  if hits s b then some s else allocate s (indexOf s.cfg b) (tagOf s.cfg b)

/-- `line[index(b)].data[offset(b)]`. -/
def lineWord (s : State) (b : Int) : Word :=
  (lineAt s (indexOf s.cfg b)).data.getD (offsetOf s.cfg b) 0#32

/-- `CacheRead(b)` of R47. -/
def cacheRead (s : State) (b : Int) : Option (Word × State) :=
  if validAddr s.cfg b then
    match ensureLine s b with
    | some s' => some (lineWord s' b, s')
    | none => none
  else none

/-- A line with one word written and marked dirty, whatever the word was (R48, R49). -/
def CacheLine.written (l : CacheLine) (o : Nat) (v : Word) : CacheLine :=
  { l with data := l.data.set o v, dirty := true }

/-- `CacheWrite(b, v)` of R48. -/
def cacheWrite (s : State) (b : Int) (v : Word) : Option State :=
  if validAddr s.cfg b then
    match ensureLine s b with
    | some s' =>
      some (setLine s' (indexOf s.cfg b) ((lineAt s' (indexOf s.cfg b)).written (offsetOf s.cfg b) v))
    | none => none
  else none

/-- A line after a flush: clean, its valid bit, tag and data kept (R50). -/
def CacheLine.cleaned (l : CacheLine) : CacheLine :=
  if l.valid && l.dirty then { l with dirty := false } else l

/-- The loop of `CacheFlush()` from line `i` on, ascending (R50; the spec's D22, log entry 13). -/
def flushLines (c : Config) (i : Nat) : List CacheLine → Memory → Option (Memory × List CacheLine)
  | [], m => some (m, [])
  | l :: ls, m =>
    match writeBack c m i l with
    | none => none
    | some m' =>
      match flushLines c (i + 1) ls m' with
      | none => none
      | some p => some (p.1, l.cleaned :: p.2)

/-- `CacheFlush()` of R50. -/
def cacheFlush (s : State) : Option State :=
  match flushLines s.cfg 0 s.lines s.mem with
  | none => none
  | some p => some { s with mem := p.1, lines := p.2 }

/-- `set_enabled(bool)` of R52: "toggles routing; does not itself flush". -/
def setEnabled (s : State) (on : Bool) : State := { s with cacheOn := on }

end Sys2Proof.Machine
end

