-- ==== Sys2Proof/Machine/Ops.lean ====
section
/-! DEFINITION. The operations every meaning is written with: registers (10_state.md R17 to R19), the program
counter (R22 to R24), the memory bus multiplexer (20_memory.md R55), raising a fatal error (60_exceptions.md R107,
R111, R116) and halting (R112). There is no return from an error (R118), so none stands here. -/

namespace Sys2Proof.Machine

/-! ### Registers -/

/-- Register 0 reads as 0 and discards writes (R17). -/
def discards (c : Config) (i : Nat) : Bool := i == 0 && c.r0Hardwired

/-- `x[i]` (R18). An index beyond NUM_REGS never reaches it from `step` (log entry 10). -/
def readReg (s : State) (i : Nat) : Word :=
  if discards s.cfg i then 0#32 else s.regs.getD i 0#32

/-- `x[i] <- v` (R19). -/
def writeReg (s : State) (i : Nat) (v : Word) : State :=
  { s with regs := if discards s.cfg i then s.regs else s.regs.set i v }

/-! ### The program counter -/

/-- `pc <- t`. -/
def setPc (s : State) (t : Word) : State := { s with pc := t }

/-- `word(uint(pc) + 4)`: the address of the next instruction in sequence (R23, R24). -/
def nextPc (s : State) : Word := word ((uint s.pc : Int) + instrBytes)

/-- `pc <- word(uint(pc) + 4)` (R23). -/
def advancePc (s : State) : State := setPc s (nextPc s)

/-! ### Fatal errors and halting -/

/-- `raise E` (60_exceptions.md R107, R111): status ERROR and the error record, with the pc of the failing step
and a message that is a free value; nothing else is written (R116). -/
def raiseError (k : ErrorKind) (s : State) : State :=
  { s with
    status := .error { kind := k, message := Config.errorMessage s.freeCount, pcAtFailure := s.pc }
    freeCount := s.freeCount + 1 }

/-- A step whose memory accesses answered `r`: it commits all of `r`, or, where one raised AddressError, commits
nothing and raises it from the state `s` the step began in (60_exceptions.md R108, R116). -/
def commit (s : State) (r : Option State) : Host.Outcome State Fault Refusal :=
  match r with
  | some t => .next t
  | none => .next (raiseError .addressError s)

/-- `status <- HALTED` (R112). -/
def setHalted (s : State) : State := { s with status := .halted }

/-- `if cache_on: CacheFlush()` (R105, R81). -/
def flushIfOn (s : State) : Option State := if s.cacheOn then cacheFlush s else some s

/-! ### The memory bus multiplexer -/

/-- `MemRead(b, 4)` of R55. -/
def memRead (s : State) (b : Int) : Option (Word × State) :=
  if s.cacheOn then cacheRead s b
  else match busLoad s.cfg s.mem b with
    | some v => some (v, s)
    | none => none

/-- `MemWrite(b, 4, v)` of R55. -/
def memWrite (s : State) (b : Int) (v : Word) : Option State :=
  if s.cacheOn then cacheWrite s b v
  else match busStore s.cfg s.mem b v with
    | some m => some (setMem s m)
    | none => none

/-- The end of an instruction that writes one register and goes on in sequence. -/
def finishWith (s : State) (rd : Nat) (v : Word) : State := advancePc (writeReg s rd v)

end Sys2Proof.Machine
end

