-- ==== Sys2Proof/Machine/Operands.lean ====
section
/-! DEFINITION. The operand forms of the ISA: a register read as a signed integer (40_arithmetic.md R87), base plus
byte offset (42_loadstore.md R99), the pc-relative branch target (41_control.md R94), the absolute jump target
(R95) and the link value (R96). Immediates and offsets are already integers in the instruction. -/

namespace Sys2Proof.Machine

/-- `sint(x[r])`. -/
def signedReg (s : State) (r : Nat) : Int := sint (readReg s r)

/-- `ea = sint(x[Rs]) + offset` of R99, an exact integer: no wrap, no scaling. -/
def effectiveAddress (s : State) (rs : Nat) (offset : Int) : Int := signedReg s rs + offset

/-- `word(uint(pc) + 4 + offset·4)` of R94. -/
def branchTarget (s : State) (offset : Int) : Word :=
  word ((uint s.pc : Int) + instrBytes + offset * instrBytes)

/-- `word(target·4)` of R95 and R96. -/
def jumpTarget (target : Nat) : Word := word ((target : Int) * instrBytes)

/-- `word(uint(pc) + 4)` of R96: the byte address of the instruction after the JAL. -/
def linkValue (s : State) : Word := nextPc s

end Sys2Proof.Machine
end

