-- ==== Sys2Proof/Machine/Flags.lean ====
section
/-! DEFINITION. The block has no status flags or condition codes (10_state.md R25). The two comparisons of the ISA
stand here: SLT's, whose result goes to a register (40_arithmetic.md R92), and BNE's (41_control.md R94). -/

namespace Sys2Proof.Machine

/-- R92: `word(1)` when `a < b` as signed integers, else `word(0)`. -/
def lessThanValue (a b : Int) : Word := if a < b then word 1 else word 0

/-- R94: full-word inequality of two registers. -/
def registersDiffer (s : State) (rs rt : Nat) : Bool := readReg s rs != readReg s rt

end Sys2Proof.Machine
end

