-- ==== Sys2Proof/Machine/Arithmetic.lean ====
section
/-! DEFINITION. The arithmetic and compare family (40_arithmetic.md R87 to R93): operands read as signed integers,
exact integer arithmetic, the result wrapped by `word`; no flag, no memory access, no error of its own. -/

namespace Sys2Proof.Machine

/-- ADD (R88). -/
def execAdd (rd rs rt : Nat) (s : State) : Host.Outcome State Fault Refusal :=
  .next (finishWith s rd (word (signedReg s rs + signedReg s rt)))

/-- ADDI (R89). -/
def execAddi (rt rs : Nat) (immd : Int) (s : State) : Host.Outcome State Fault Refusal :=
  .next (finishWith s rt (word (signedReg s rs + immd)))

/-- SUB (R90). -/
def execSub (rd rs rt : Nat) (s : State) : Host.Outcome State Fault Refusal :=
  .next (finishWith s rd (word (signedReg s rs - signedReg s rt)))

/-- SUBI (R91). -/
def execSubi (rd rs : Nat) (immd : Int) (s : State) : Host.Outcome State Fault Refusal :=
  .next (finishWith s rd (word (signedReg s rs - immd)))

/-- SLT (R92). -/
def execSlt (rd rs rt : Nat) (s : State) : Host.Outcome State Fault Refusal :=
  .next (finishWith s rd (lessThanValue (signedReg s rs) (signedReg s rt)))

end Sys2Proof.Machine
end

