-- ==== Sys2Proof/Machine/Control.lean ====
section
/-! DEFINITION. The control transfer family (41_control.md R94 to R98): "pc becomes target directly, loop does not
additionally advance"; no delay slot; a target outside the program fails at the next fetch, not here. -/

namespace Sys2Proof.Machine

/-- BNE (R94). -/
def execBne (rs rt : Nat) (offset : Int) (s : State) : Host.Outcome State Fault Refusal :=
  .next (if registersDiffer s rs rt then setPc s (branchTarget s offset) else advancePc s)

/-- J (R95). -/
def execJ (target : Nat) (s : State) : Host.Outcome State Fault Refusal :=
  .next (setPc s (jumpTarget target))

/-- JAL (R96): register LINK_REG gets the address of the next instruction. -/
def execJal (target : Nat) (s : State) : Host.Outcome State Fault Refusal :=
  .next (setPc (writeReg s linkReg (linkValue s)) (jumpTarget target))

end Sys2Proof.Machine
end

