-- ==== Sys2Proof/Machine/LoadStore.lean ====
section
/-! DEFINITION. The load and store family (42_loadstore.md R99 to R101): one word at base plus byte offset, through
the multiplexer of 20_memory.md R55. An invalid address raises AddressError with nothing changed. -/

namespace Sys2Proof.Machine

/-- LW (R100). -/
def execLw (rt : Nat) (offset : Int) (rs : Nat) (s : State) : Host.Outcome State Fault Refusal :=
  commit s ((memRead s (effectiveAddress s rs offset)).map fun p => finishWith p.2 rt p.1)

/-- SW (R101). -/
def execSw (rt : Nat) (offset : Int) (rs : Nat) (s : State) : Host.Outcome State Fault Refusal :=
  commit s ((memWrite s (effectiveAddress s rs offset) (readReg s rt)).map advancePc)

end Sys2Proof.Machine
end

