-- ==== Sys2Proof/Machine/System.lean ====
section
/-! DEFINITION. The system family (43_system.md R102 to R106): CACHE, NOP, HALT. -/

namespace Sys2Proof.Machine

/-- CACHE (R102, R103): 0 disables, 1 enables, 2 flushes once whatever the mode; any other code is a DecodeError,
which `step` raises at decode before it comes here. -/
def execCache (code : Int) (s : State) : Host.Outcome State Fault Refusal :=
  if code = 0 then .next (advancePc (setEnabled s false))
  else if code = 1 then .next (advancePc (setEnabled s true))
  else if code = 2 then commit s ((cacheFlush s).map advancePc)
  else .next (raiseError .decodeError s)

/-- NOP (R104). -/
def execNop (s : State) : Host.Outcome State Fault Refusal := .next (advancePc s)

/-- The state HALT leaves: HALTED, the pc at the HALT unless HALT_ADVANCES_PC (R105, R23). -/
def haltedState (s : State) : State :=
  if s.cfg.haltAdvancesPc then advancePc (setHalted s) else setHalted s

/-- HALT (R105): "flush-on-halt is mandatory" when the cache is on. -/
def execHalt (s : State) : Host.Outcome State Fault Refusal := commit s ((flushIfOn s).map haltedState)

end Sys2Proof.Machine
end

