-- ==== Sys2Proof/Machine/Dispatch.lean ====
section
/-! DEFINITION. `Execute(ins)` of 30_encoding.md R81: one arm for each instruction. -/

namespace Sys2Proof.Machine

def exec (i : Instr) (s : State) : Host.Outcome State Fault Refusal :=
  match i with
  -- arithmetic and compare (40_arithmetic.md)
  | .add rd rs rt => Sys2Proof.Machine.execAdd rd rs rt s
  | .addi rt rs immd => Sys2Proof.Machine.execAddi rt rs immd s
  | .sub rd rs rt => Sys2Proof.Machine.execSub rd rs rt s
  | .subi rd rs immd => Sys2Proof.Machine.execSubi rd rs immd s
  | .slt rd rs rt => Sys2Proof.Machine.execSlt rd rs rt s
  -- control transfer (41_control.md)
  | .bne rs rt offset => Sys2Proof.Machine.execBne rs rt offset s
  | .j target => Sys2Proof.Machine.execJ target s
  | .jal target => Sys2Proof.Machine.execJal target s
  -- loads and stores (42_loadstore.md)
  | .lw rt offset rs => Sys2Proof.Machine.execLw rt offset rs s
  | .sw rt offset rs => Sys2Proof.Machine.execSw rt offset rs s
  -- system (43_system.md)
  | .cache code => Sys2Proof.Machine.execCache code s
  | .nop => Sys2Proof.Machine.execNop s
  | .halt => Sys2Proof.Machine.execHalt s

end Sys2Proof.Machine
end

