-- ==== Sys2Proof/Machine/Fetch.lean ====
section
/-! DEFINITION. Fetch, and one pass of the fetch-decode-execute loop while RUNNING (30_encoding.md R81), with the
order of checks of 60_exceptions.md R115. -/

namespace Sys2Proof.Machine

/-- What a fetch finds (R81): an entry; the pc exactly at the end where IMPLICIT_HALT makes that a halt; or an
index out of range. -/
inductive Fetched where
  | entry (e : Entry)
  | implicitHalt
  | outOfRange
deriving DecidableEq, Repr

/-- `k = uint(pc) / 4` (R81, 10_state.md R32). -/
def fetchIndex (s : State) : Nat := uint s.pc / instrBytes

/-- The fetch of R81, with PROG_LEN the length of the instruction store. -/
def fetch (s : State) : Fetched :=
  match s.imem[fetchIndex s]? with
  | some e => .entry e
  | none =>
    if s.cfg.implicitHalt && uint s.pc == instrBytes * s.imem.length then .implicitHalt else .outOfRange

/-- Decode and execute one entry (R81): unknown, ExecutionError; malformed, DecodeError; else its meaning. -/
def runEntry (e : Entry) (s : State) : Host.Outcome State Fault Refusal :=
  match decodeEntry s.cfg e with
  | .unknown => .next (raiseError .executionError s)
  | .malformed _ => .next (raiseError .decodeError s)
  | .instr i => exec i s

/-- `Step()` of R81, applied while RUNNING. At an implicit halt the pc is left where it is. -/
def stepRunning (s : State) : Host.Outcome State Fault Refusal :=
  match fetch s with
  | .entry e => runEntry e s
  | .implicitHalt => commit s ((flushIfOn s).map setHalted)
  | .outOfRange => .next (raiseError .executionError s)

/-- The instruction store with entry `k` replaced, lengthened with NOP words where it is too short (log entry 16). -/
def placeEntry (prog : List Entry) (k : Nat) (e : Entry) : List Entry :=
  if k < prog.length then prog.set k e
  else prog ++ List.replicate (k - prog.length) (.word 0#32) ++ [e]

/-- The host's word as an entry: the whole instruction is one 32-bit word (log entry 12). -/
def entryOfBits (nbits w : Nat) : Entry := .word (BitVec.ofNat 32 (w % 2 ^ nbits))

end Sys2Proof.Machine
end

