-- ==== Sys2Proof/Machine/Step.lean ====
section
/-! DEFINITION. One step of the machine (30_encoding.md R81, 60_exceptions.md R113), and where the host places
the instruction the next step fetches. -/

namespace Sys2Proof.Machine

/-- One step: none is possible in a terminal state (R113; log entry 7); a configuration outside R8 is refused
(log entry 9); else `Step()` of R81. -/
def step (s : State) : Host.Outcome State Fault Refusal :=
  match s.status with
  | .halted => .fault .halted
  | .error _ => .fault .errored
  | .running => if s.cfg.wf then stepRunning s else .refused .illFormedConfig

/-- The state with an instruction word where `step` fetches next: entry `uint(pc)/4` of the instruction store,
and the core RUNNING, as the host's load of a program leaves it (log entry 16). -/
def State.withFetchWord (s : State) (nbits w : Nat) : State :=
  { s with
    imem := placeEntry s.imem (fetchIndex s) (entryOfBits nbits w)
    status := .running }

end Sys2Proof.Machine
end

