-- ==== Sys2Proof/Machine/HostPort.lean ====
section
/-! DEFINITION. The host's ports (70_reset_and_hazards.md R126): load and reset (R127, R128, R131, R132), run
control with the instruction-count ceiling (R130, R136), and the read-only snapshots (R133 to R135). The text
files behind the load port are parsed by excluded software (00_scope.md R4). -/

namespace Sys2Proof.Machine

/-! ### The load port -/

/-- The conversion of one base-2 address string to its word index (R132): digits, most significant first; a
character other than 0 and 1, or no digit at all, is refused. -/
def wordIndexOfBase2 (digits : List Char) : Option Nat :=
  if digits ≠ [] ∧ digits.all (fun d => d == '0' || d == '1') then
    some (digits.foldl (fun n d => 2 * n + if d == '1' then 1 else 0) 0)
  else none

/-- R132: an index in [0, MEM_WORDS) and a value in [−2^(XLEN−1), 2^XLEN). -/
def imageEntryOk (c : Config) (d : Nat × Int) : Bool :=
  decide (d.1 < c.memWords) && decide (-(2 : Int) ^ 31 ≤ d.2) && decide (d.2 < (2 : Int) ^ 32)

/-- The initial mapping as a list: every entry admissible, no index twice (R132; log entry 14). -/
def imageOk (c : Config) (image : List (Nat × Int)) : Bool :=
  image.all (imageEntryOk c) && decide ((image.map Prod.fst).Nodup)

/-- Reset and load (R127, R128): the reset state with the host's sequence and `initialize` of the host's mapping,
each value `n` brought into `word(n)`; none where the loader refuses the image or the configuration is not R8's. -/
def State.load (c : Config) (prog : List Entry) (image : List (Nat × Int)) : Option State :=
  if c.wf && imageOk c image then
    some (State.resetWith c prog (Memory.initialize (image.map fun d => (d.1, word d.2))))
  else none

/-! ### Run control -/

/-- The run under a ceiling of `C` steps (R130, R136): `Step()` repeated until the status is not RUNNING or `C`
steps are done; a ceiling stop leaves the state as the last step left it. -/
def State.runCeiling : Nat → State → State
  | 0, s => s
  | n + 1, s =>
    match step s with
    | .next t => State.runCeiling n t
    | .fault _ => s
    | .refused _ => s

/-! ### The observe port -/

/-- `halted: bool` (R133, 10_state.md R26): the status is HALTED. -/
def State.isHalted (s : State) : Bool := s.status == .halted

/-- `pc: integer` (R133). -/
def State.snapshotPc (s : State) : Nat := uint s.pc

/-- `registers: ordered sequence of integers` (R133): `sint(x[i])` for i = 0 to NUM_REGS − 1. -/
def State.snapshotRegs (s : State) : List Int := (List.range s.cfg.numRegs).map fun i => sint (readReg s i)

/-- A MemoryBus word, read directly: not through the cache, and with no flush (R135). DESIGN CHOICE: at an index at or
beyond MEM_WORDS the spec says nothing, and this answers what the list of cells reads as there (log entry 18). -/
def State.snapshotWord (s : State) (w : Nat) : Word := s.mem.read w

/-- "the full MemoryBus contents" (R133). -/
def State.snapshotMem (s : State) : List Word := (List.range s.cfg.memWords).map s.snapshotWord

/-- The error record, exactly when the status is ERROR (R134, 60_exceptions.md R111). -/
def State.errorReport (s : State) : Option ErrorRecord :=
  match s.status with
  | .error r => some r
  | .running => none
  | .halted => none

end Sys2Proof.Machine
end

