-- ==== Sys2Proof/Safety.lean ====
section
/-! DEFINITION. The terms claims are stated in: the invariant of the block, what a safe run is, what an
instruction leaves unchanged, what a program sees of memory through the cache, and the three word formats of
30_encoding.md R73 to R75 as concatenations of fields. The machine does not use them. -/

namespace Sys2Proof.Machine

/-! ### The invariant -/

/-- A line has BLOCK_SIZE words and a TAG_BITS tag, and dirty implies valid (10_state.md R29, R30). -/
def CacheLine.wf (c : Config) (l : CacheLine) : Bool :=
  (l.data.length == c.blockSize) && decide (l.tag < 2 ^ c.tagBits) && (!l.dirty || l.valid)

/-- What every state of a run meets: the sizes 10_state.md gives the arrays, an aligned pc (R24), the cache
invariants (R30), a MemoryBus in canonical form inside its MEM_WORDS words (R31), and an error record that names
the pc the core stopped at (60_exceptions.md R111, R116). -/
structure Inv (s : State) : Prop where
  cfgWf      : s.cfg.wf = true
  regsLength : s.regs.length = s.cfg.numRegs
  pcAligned  : uint s.pc % 4 = 0
  linesCount : s.lines.length = s.cfg.numLines
  linesWf    : ∀ l ∈ s.lines, l.wf s.cfg = true
  memWf      : s.mem.wf = true
  memInRange : s.mem.inRange s.cfg = true
  errorPc    : ∀ r, s.status = .error r → r.pcAtFailure = s.pc

/-- A run is safe where no fatal error ends it: the status is RUNNING or HALTED (60_exceptions.md R107, R112). -/
def SafeStatus (s : State) : Prop := s.status = .running ∨ s.status = .halted

/-! ### Frames -/

/-- Register `rd` holds `v`, or, where it is a hard-wired register 0, still reads 0 (10_state.md R17, R19). -/
def RegWritten (t : State) (rd : Nat) (v : Word) : Prop :=
  readReg t rd = if rd = 0 ∧ t.cfg.r0Hardwired = true then 0#32 else v

/-- The parameters of the run, the status with its error record, and every register but `dst` are as before. -/
structure KeepsAllBut (dst : Option Nat) (s t : State) : Prop where
  cfg    : t.cfg = s.cfg
  imem   : t.imem = s.imem
  status : t.status = s.status
  regs   : ∀ r, dst ≠ some r → readReg t r = readReg s r

/-- The cache mode, every cache line and every word of the MemoryBus are as before. -/
structure KeepsMemory (s t : State) : Prop where
  cacheOn : t.cacheOn = s.cacheOn
  lines   : t.lines = s.lines
  words   : ∀ w, t.mem.read w = s.mem.read w

/-- The step raised `k`: status ERROR with the pc of the failing step, whatever the message (U9), and all else as
before (60_exceptions.md R107, R111, R116). -/
structure Raised (k : ErrorKind) (s t : State) : Prop where
  status  : ∃ m, t.status = .error ⟨k, m, s.pc⟩
  pc      : t.pc = s.pc
  cfg     : t.cfg = s.cfg
  imem    : t.imem = s.imem
  regs    : ∀ r, readReg t r = readReg s r
  memory  : KeepsMemory s t

/-- The register an instruction writes, by 10_state.md R20. -/
def destination : Instr → Option Nat
  | .add rd _ _ => some rd
  | .addi rt _ _ => some rt
  | .sub rd _ _ => some rd
  | .subi rd _ _ => some rd
  | .slt rd _ _ => some rd
  | .lw rt _ _ => some rt
  | .jal _ => some linkReg
  | .bne _ _ _ => none
  | .j _ => none
  | .sw _ _ _ => none
  | .cache _ => none
  | .nop => none
  | .halt => none

/-! ### Memory as a program sees it -/

/-- Line `i` holds a block whose write-back is due (20_memory.md R46, R50). -/
def lineDirty (s : State) (i : Nat) : Prop := (lineAt s i).valid = true ∧ (lineAt s i).dirty = true

/-- Word `w` of the MemoryBus is word `o` of the block line `i` holds (20_memory.md R44). -/
def isWordOfLine (s : State) (i o w : Nat) : Prop :=
  o < s.cfg.blockSize ∧ w = baseWord s.cfg (lineAt s i).tag i + o

/-- Word `o` of line `i`'s data. -/
def lineData (s : State) (i o : Nat) : Word := (lineAt s i).data.getD o 0#32

/-- The word a load of word `w` through the cache returns: the line's where it hits, else the MemoryBus's
(20_memory.md R47, R62). -/
def visibleWord (s : State) (w : Nat) : Word :=
  if hits s (w * 4 : Nat) then lineWord s (w * 4 : Nat) else s.mem.read w

/-- Every valid clean line equals the MemoryBus words of its block: no store has bypassed it since its fill
(20_memory.md R53's proviso, R62). -/
def CleanLinesMatch (s : State) : Prop :=
  ∀ i o, i < s.cfg.numLines → o < s.cfg.blockSize → (lineAt s i).valid = true → (lineAt s i).dirty = false →
    lineData s i o = s.mem.read (baseWord s.cfg (lineAt s i).tag i + o)

/-- Word `w` of the MemoryBus after an access to byte address `b` through the cache: on a miss of a valid dirty
line, the words of its block are written back; every other word is as before (20_memory.md R46 to R48). -/
def memAfterAccess (s : State) (b : Int) (w : Nat) : Word :=
  let i := indexOf s.cfg b
  let base := baseWord s.cfg (lineAt s i).tag i
  if hits s b = false ∧ ((lineAt s i).valid = true ∧ (lineAt s i).dirty = true) ∧
      base ≤ w ∧ w < base + s.cfg.blockSize
  then lineData s i (w - base) else s.mem.read w

/-- Word `o` of line `index(b)` once an access to `b` through the cache has made the line present: the line's own
word on a hit, the MemoryBus's on a miss (R46 to R48). -/
def lineAfterAccess (s : State) (b : Int) (o : Nat) : Word :=
  if hits s b then lineData s (indexOf s.cfg b) o
  else s.mem.read (baseWord s.cfg (tagOf s.cfg b) (indexOf s.cfg b) + o)

/-- What a flush leaves (20_memory.md R50): the words of every dirty line's block are in the MemoryBus and every
other word is as before; every line is clean, with its valid bit, tag and data kept. -/
structure Flushed (s t : State) : Prop where
  written   : ∀ i o, i < s.cfg.numLines → o < s.cfg.blockSize → lineDirty s i →
    t.mem.read (baseWord s.cfg (lineAt s i).tag i + o) = lineData s i o
  unwritten : ∀ w, (∀ i o, i < s.cfg.numLines → lineDirty s i → ¬ isWordOfLine s i o w) →
    t.mem.read w = s.mem.read w
  cleaned   : t.lines = s.lines.map fun l => { l with dirty := false }

/-- Two lines that no rule tells apart: the same line, or two invalid clean ones (10_state.md R30, U10). -/
def LinesAlike (l l' : CacheLine) : Prop :=
  l = l' ∨ (l.valid = false ∧ l'.valid = false ∧ l.dirty = false ∧ l'.dirty = false)

/-- Two states that differ at most in the tags and data of invalid cache lines (10_state.md R30). -/
structure ObservablyEqual (s s' : State) : Prop where
  rest  : s' = { s with lines := s'.lines }
  count : s'.lines.length = s.lines.length
  lines : ∀ i, LinesAlike (lineAt s i) (lineAt s' i)

/-- What the next step of a running core does where the pc lies at or beyond the end of the program: it raises
ExecutionError there, or, with IMPLICIT_HALT and the pc exactly at the end, halts (30_encoding.md R81). -/
def EndIsChecked (t : State) : Prop :=
  t.status = .running → 4 * t.imem.length ≤ uint t.pc →
    ∃ u, step t = .next u ∧
      if t.cfg.implicitHalt = true ∧ uint t.pc = 4 * t.imem.length then u.status = .halted ∧ u.pc = t.pc
      else Raised .executionError t u

/-- The instruction the next step of a running core executes, where it reaches one (30_encoding.md R81). -/
def currentInstr (s : State) : Option Instr :=
  match fetch s with
  | .entry e =>
    match decodeEntry s.cfg e with
    | .instr i => some i
    | .malformed _ => none
    | .unknown => none
  | .implicitHalt => none
  | .outOfRange => none

/-! ### The word formats -/

/-- R73: `op = 000000`, `rs`, `rt`, `rd`, `shamt`, `funct`, most significant first (00_scope.md R9's `++`). -/
def rWord (rs rt rd shamt : BitVec 5) (funct : BitVec 6) : Word := 0#6 ++ rs ++ rt ++ rd ++ shamt ++ funct

/-- R74: `op`, `rs`, `rt`, `imm16`. -/
def iWord (op : BitVec 6) (rs rt : BitVec 5) (imm : BitVec 16) : Word := op ++ rs ++ rt ++ imm

/-- R75: `op`, `target26`. -/
def jWord (op : BitVec 6) (target : BitVec 26) : Word := op ++ target

end Sys2Proof.Machine
end

