-- ==== Sys2Proof/Certificates/Slice0/Obligations.lean ====
section
/-! DEFINITION. The statements about the machine, one for each entry of OBLIGATIONS.json.

`Inv s` is the invariant of Safety.lean; a hypothesis `i.wf s.cfg = true` says that the operands have the ranges of
30_encoding.md R68, without which the instruction is never executed (R70). In an encoding clause the operands are
laid into the fields of R73 to R75; that word format is the spec's own decision D2 (92_eei_decisions.md), which its
rules state. Memory is read a word at a time: the block has no smaller access
(20_memory.md R36, R57). -/

open Sys2Proof Sys2Proof.Machine

/-! ### Reset and load -/

/-- The invariant holds right after reset. Its reset values are those of 10_state.md R35. -/
def Obligations.ResetMeetsTheInvariant : Prop := Inv State.reset

/-- 10_state.md R35: what reset and load leave, for any configuration, program and image the loader accepts. -/
def Obligations.LoadLeavesTheResetValues : Prop :=
  ∀ (c : Config) (prog : List Entry) (image : List (Nat × Int)) (s : State), State.load c prog image = some s →
    (∀ r, readReg s r = 0#32) ∧ s.regs.length = c.numRegs ∧ s.pc = 0#32 ∧ s.status = .running ∧
    s.cacheOn = false ∧ s.lines.length = c.numLines ∧
    (∀ i, i < c.numLines → (lineAt s i).valid = false ∧ (lineAt s i).dirty = false ∧ (lineAt s i).tag = 0 ∧
      (lineAt s i).data.length = c.blockSize ∧ ∀ o, lineData s i o = 0#32) ∧
    (∀ w n, (w, n) ∈ image → s.mem.read w = word n) ∧
    (∀ w, (∀ n, (w, n) ∉ image) → s.mem.read w = 0#32) ∧
    s.imem = prog ∧ s.cfg = c

/-- 70_reset_and_hazards.md R132 and 00_scope.md R8: when the loader accepts. That an index may not stand twice is
the model's reading of "mapping" (log entry 14). -/
def Obligations.LoadAcceptsTheAdmissibleImages : Prop :=
  ∀ (c : Config) (prog : List Entry) (image : List (Nat × Int)),
    (∃ s, State.load c prog image = some s) ↔
      c.wf = true ∧ (∀ w n, (w, n) ∈ image → w < c.memWords ∧ -2147483648 ≤ n ∧ n < 4294967296) ∧
      (image.map Prod.fst).Nodup

/-- The invariant holds of every state a load leaves. -/
def Obligations.LoadMeetsTheInvariant : Prop :=
  ∀ (c : Config) (prog : List Entry) (image : List (Nat × Int)) (s : State),
    State.load c prog image = some s → Inv s

/-- Every step keeps the invariant: array sizes, pc alignment (10_state.md R24), the cache invariants (R30), the
canonical form of memory, the error record's pc (60_exceptions.md R116). -/
def Obligations.StepKeepsTheInvariant : Prop :=
  ∀ s t : State, Inv s → step s = .next t → Inv t

/-! ### Encoding and decoding -/

/-- Words written out from the spec's encodings (40_arithmetic.md to 43_system.md examples; 95_test_vectors.md 2.6). -/
def Obligations.SpecWordsDecodeAsWritten : Prop :=
  decodeWord Config.default 0x00221820#32 = .instr (.add 3 1 2) ∧
  decodeWord Config.default 0x2022FFFB#32 = .instr (.addi 2 1 (-5)) ∧
  decodeWord Config.default 0x00221822#32 = .instr (.sub 3 1 2) ∧
  decodeWord Config.default 0x60220007#32 = .instr (.subi 2 1 7) ∧
  decodeWord Config.default 0x0022182A#32 = .instr (.slt 3 1 2) ∧
  decodeWord Config.default 0x14220003#32 = .instr (.bne 1 2 3) ∧
  decodeWord Config.default 0x0800000A#32 = .instr (.j 10) ∧
  decodeWord Config.default 0x0C00000A#32 = .instr (.jal 10) ∧
  decodeWord Config.default 0x8C240008#32 = .instr (.lw 4 8 1) ∧
  decodeWord Config.default 0xAC240008#32 = .instr (.sw 4 8 1) ∧
  decodeWord Config.default 0xBC000001#32 = .instr (.cache 1) ∧
  decodeWord Config.default 0x00000000#32 = .instr .nop ∧
  decodeWord Config.default 0xFC000000#32 = .instr .halt ∧
  decodeWord Config.default 0x00000001#32 = .unknown ∧
  decodeWord Config.default 0x04000000#32 = .unknown ∧
  decodeWord Config.default 0x00221860#32 = .malformed .add ∧
  decodeWord Config.default 0xBC000003#32 = .malformed .cache ∧
  decodeWord Config.default 0xFFFFFFFF#32 = .malformed .halt

/-- 30_encoding.md R80: every well-formed instruction has a word, and it decodes to that instruction, with every
operand at every value R68 admits. -/
def Obligations.DecodeOfEncodeIsTheInstruction : Prop :=
  ∀ (c : Config) (i : Instr), c.wf = true → i.wf c = true → decodeWord c (encode i) = .instr i

/-- 30_encoding.md R80: a word that decodes to an instruction is that instruction's one word, and the instruction is
well formed. -/
def Obligations.EncodeOfDecodeIsTheWord : Prop :=
  ∀ (c : Config) (w : Word) (i : Instr), decodeWord c w = .instr i → encode i = w ∧ i.wf c = true

/-- 30_encoding.md R76's match and mask columns: a word selects a row exactly where the masked word is the match. -/
def Obligations.MatchAndMaskSelectTheRow : Prop :=
  ∀ row ∈ ([(.nop, 0x00000000#32, 0xFC00003F#32), (.add, 0x00000020#32, 0xFC00003F#32),
      (.sub, 0x00000022#32, 0xFC00003F#32), (.slt, 0x0000002A#32, 0xFC00003F#32),
      (.j, 0x08000000#32, 0xFC000000#32), (.jal, 0x0C000000#32, 0xFC000000#32),
      (.bne, 0x14000000#32, 0xFC000000#32), (.addi, 0x20000000#32, 0xFC000000#32),
      (.subi, 0x60000000#32, 0xFC000000#32), (.lw, 0x8C000000#32, 0xFC000000#32),
      (.sw, 0xAC000000#32, 0xFC000000#32), (.cache, 0xBC000000#32, 0xFC000000#32),
      (.halt, 0xFC000000#32, 0xFC000000#32)] : List (Opcode × Word × Word)),
    ∀ w : Word, (selectRow w).map OpRow.opcode = some row.1 ↔ w &&& row.2.2 = row.2.1

/-- 30_encoding.md R79: the words that spell no instruction, and that a step on one raises ExecutionError. -/
def Obligations.UnassignedWordsAreUnknown : Prop :=
  ∀ (c : Config) (w : Word),
    (decodeWord c w = .unknown ↔
      (w.extractLsb' 26 6 = 0#6 ∧ w.extractLsb' 0 6 ∉ [0x00#6, 0x20#6, 0x22#6, 0x2A#6]) ∨
      w.extractLsb' 26 6 ∉
        [0x00#6, 0x02#6, 0x03#6, 0x05#6, 0x08#6, 0x18#6, 0x23#6, 0x2B#6, 0x2F#6, 0x3F#6]) ∧
    (decodeWord c w = .unknown → ∀ s : State, s.cfg = c → c.wf = true → s.status = .running →
      s.imem[uint s.pc / 4]? = some (.word w) → ∃ t, step s = .next t ∧ Raised .executionError s t)

/-- 30_encoding.md R78 (the spec's decision D24): the words of a known instruction that are malformed, and that a step
on one raises DecodeError. -/
def Obligations.MalformedWordsRaiseDecodeError : Prop :=
  ∀ (c : Config) (w : Word),
    ((∃ o, decodeWord c w = .malformed o) ↔
      decodeWord c w ≠ .unknown ∧
      let op := w.extractLsb' 26 6
      let rs := w.extractLsb' 21 5
      let rt := w.extractLsb' 16 5
      let rd := w.extractLsb' 11 5
      ((op = 0x00#6 ∧ w.extractLsb' 6 5 ≠ 0#5) ∨
       (op = 0x00#6 ∧ w.extractLsb' 0 6 = 0x00#6 ∧ (rs ≠ 0#5 ∨ rt ≠ 0#5 ∨ rd ≠ 0#5)) ∨
       (op = 0x00#6 ∧ w.extractLsb' 0 6 ≠ 0x00#6 ∧
         (c.numRegs ≤ rs.toNat ∨ c.numRegs ≤ rt.toNat ∨ c.numRegs ≤ rd.toNat)) ∨
       (op ∈ [0x05#6, 0x08#6, 0x18#6, 0x23#6, 0x2B#6] ∧ (c.numRegs ≤ rs.toNat ∨ c.numRegs ≤ rt.toNat)) ∨
       (op = 0x2F#6 ∧ (rs ≠ 0#5 ∨ rt ≠ 0#5 ∨ 2 < (w.extractLsb' 0 16).toNat)) ∨
       (op = 0x3F#6 ∧ w.extractLsb' 0 26 ≠ 0#26))) ∧
    (∀ o, decodeWord c w = .malformed o → ∀ s : State, s.cfg = c → c.wf = true → s.status = .running →
      s.imem[uint s.pc / 4]? = some (.word w) → ∃ t, step s = .next t ∧ Raised .decodeError s t)

/-- 30_encoding.md R67 to R70: a record decodes to an instruction exactly where it is that instruction's record and
the instruction is well formed; any other record of a known opcode is malformed, and an unknown opcode unknown. -/
def Obligations.RecordsDecodeToTheirInstructions : Prop :=
  ∀ (c : Config) (r : Record),
    (∀ i, decodeRecord c r = .instr i ↔ i.wf c = true ∧ r = i.toRecord) ∧
    (∀ o, r.opcode = .known o → (∀ i, decodeRecord c r ≠ .instr i) → decodeRecord c r = .malformed o) ∧
    (r.opcode = .unknown → decodeRecord c r = .unknown)

/-- 30_encoding.md R80: a program given as records and the same program given as the encoded words go through the
same states, step for step. -/
def Obligations.RecordsAndWordsRunAlike : Prop :=
  ∀ (prog : List Instr) (s : State) (n : Nat), s.cfg.wf = true → (∀ i ∈ prog, i.wf s.cfg = true) →
    State.runCeiling n { s with imem := prog.map fun i => .record i.toRecord } =
      { State.runCeiling n { s with imem := prog.map fun i => .word (encode i) } with
        imem := prog.map fun i => .record i.toRecord }

/-! ### The step -/

/-- 30_encoding.md R81: where the fetched entry decodes to an instruction, a step of a running core is that
instruction's execution; nothing is added around it (the pc update is the instruction's own). -/
def Obligations.StepRunsTheDecodedInstruction : Prop :=
  ∀ (s : State) (e : Entry) (i : Instr), s.status = .running → s.cfg.wf = true →
    s.imem[uint s.pc / 4]? = some e → decodeEntry s.cfg e = .instr i → step s = exec i s

/-- The word the host places is the one the next step fetches and runs (30_encoding.md R81; log entry 16). -/
def Obligations.PlacedWordIsTheNextInstruction : Prop :=
  ∀ (s : State) (nbits w : Nat) (i : Instr), s.cfg.wf = true →
    decodeWord s.cfg (BitVec.ofNat 32 (w % 2 ^ nbits)) = .instr i →
    step (s.withFetchWord nbits w) = exec i (s.withFetchWord nbits w)

/-- 60_exceptions.md R110 (b) and 30_encoding.md R81: a fetch at or beyond the end of the program raises
ExecutionError, except that IMPLICIT_HALT halts a core exactly at the end, with the flush HALT does. -/
def Obligations.FetchPastTheEndIsChecked : Prop :=
  ∀ s : State, Inv s → s.status = .running → 4 * s.imem.length ≤ uint s.pc →
    (s.cfg.implicitHalt = true ∧ uint s.pc = 4 * s.imem.length →
      ∃ t, step s = .next t ∧ t.status = .halted ∧ t.pc = s.pc ∧ t.cacheOn = s.cacheOn ∧
        (∀ r, readReg t r = readReg s r) ∧ t.cfg = s.cfg ∧ t.imem = s.imem ∧
        (if s.cacheOn = true then Flushed s t else KeepsMemory s t)) ∧
    (¬ (s.cfg.implicitHalt = true ∧ uint s.pc = 4 * s.imem.length) →
      ∃ t, step s = .next t ∧ Raised .executionError s t)

/-- 60_exceptions.md R109 and R110 (a): an entry with an unknown opcode raises ExecutionError, a malformed one
DecodeError, when it is fetched. -/
def Obligations.UndecodableEntriesRaise : Prop :=
  ∀ (s : State) (e : Entry), s.status = .running → s.cfg.wf = true → s.imem[uint s.pc / 4]? = some e →
    (decodeEntry s.cfg e = .unknown → ∃ t, step s = .next t ∧ Raised .executionError s t) ∧
    (∀ o, decodeEntry s.cfg e = .malformed o → ∃ t, step s = .next t ∧ Raised .decodeError s t)

/-- 60_exceptions.md R116 with R107 and R111: a step that ends in ERROR has written the error record and nothing
else, whatever raised it; the record's pc is the pc of the failing step. -/
def Obligations.ErrorsArePrecise : Prop :=
  ∀ (s t : State) (r : ErrorRecord), step s = .next t → t.status = .error r → Raised r.kind s t ∧ r.pcAtFailure = s.pc

/-- 60_exceptions.md R115: which kind of error a failing step reports, by the first check that fails. -/
def Obligations.ErrorKindFollowsTheCheckOrder : Prop :=
  ∀ (s t : State) (r : ErrorRecord), Inv s → step s = .next t → t.status = .error r →
    (r.kind = .executionError ∧ s.imem.length ≤ uint s.pc / 4) ∨
    (∃ e, s.imem[uint s.pc / 4]? = some e ∧ decodeEntry s.cfg e = .unknown ∧ r.kind = .executionError) ∨
    (∃ e o, s.imem[uint s.pc / 4]? = some e ∧ decodeEntry s.cfg e = .malformed o ∧ r.kind = .decodeError) ∨
    (∃ rt offset rs, (currentInstr s = some (.lw rt offset rs) ∨ currentInstr s = some (.sw rt offset rs)) ∧
      validAddr s.cfg (sint (readReg s rs) + offset) = false ∧ r.kind = .addressError)

/-- 60_exceptions.md R115, "A step that passes all four completes", with R108: no fill, eviction or flush raises. -/
def Obligations.PassingTheChecksCompletes : Prop :=
  ∀ (s : State) (i : Instr), Inv s → s.status = .running → currentInstr s = some i →
    (∀ rt offset rs, (i = .lw rt offset rs ∨ i = .sw rt offset rs) →
      validAddr s.cfg (sint (readReg s rs) + offset) = true) →
    ∃ t, step s = .next t ∧ SafeStatus t

/-- 60_exceptions.md R113: in a terminal state no step is possible, and a run of any length changes nothing. -/
def Obligations.TerminalStatesAreFinal : Prop :=
  ∀ s : State, s.status ≠ .running → (∀ t, step s ≠ .next t) ∧ ∀ n, State.runCeiling n s = s

/-- 10_state.md R14 and R32: no step changes the configuration or the instruction store. -/
def Obligations.StepKeepsProgramAndConfiguration : Prop :=
  ∀ s t : State, step s = .next t → t.cfg = s.cfg ∧ t.imem = s.imem

/-- 10_state.md R27: the cache mode is "set exclusively by the CACHE instruction", codes 0 and 1. -/
def Obligations.OnlyCacheSwitchesTheMode : Prop :=
  ∀ s t : State, step s = .next t → t.cacheOn ≠ s.cacheOn →
    (currentInstr s = some (.cache 0) ∧ t.cacheOn = false) ∨ (currentInstr s = some (.cache 1) ∧ t.cacheOn = true)

/-- 10_state.md R20: a step changes no register but the destination of its current instruction; a step whose current
instruction has no destination, or that reaches no instruction, changes none. (That a LW which raises changes none
either is part of ErrorsArePrecise.) -/
def Obligations.OnlyTheDestinationChanges : Prop :=
  ∀ (s t : State) (r : Nat), step s = .next t → readReg t r ≠ readReg s r →
    ∃ i, currentInstr s = some i ∧ destination i = some r

/-- 60_exceptions.md R112: a core enters HALTED only by HALT or, with IMPLICIT_HALT, exactly at the end of the
program, and both flush the cache first when it is on. -/
def Obligations.HaltedOnlyByHaltOrTheEnd : Prop :=
  ∀ s t : State, Inv s → step s = .next t → t.status = .halted →
    (currentInstr s = some .halt ∨ (s.cfg.implicitHalt = true ∧ uint s.pc = 4 * s.imem.length)) ∧
    if s.cacheOn = true then Flushed s t else KeepsMemory s t

/-- 10_state.md R23 and R24: where the pc goes after each instruction that does not raise, wrapped to 32 bits. -/
def Obligations.PcAfterEachInstruction : Prop :=
  ∀ (s t : State) (i : Instr), step s = .next t → currentInstr s = some i → SafeStatus t →
    t.pc = match i with
      | .bne rs rt offset =>
        if readReg s rs = readReg s rt then s.pc + 4#32 else BitVec.ofInt 32 (uint s.pc + 4 + offset * 4)
      | .j target => BitVec.ofNat 32 (target * 4)
      | .jal target => BitVec.ofNat 32 (target * 4)
      | .halt => if s.cfg.haltAdvancesPc = true then s.pc + 4#32 else s.pc
      | .add _ _ _ | .addi _ _ _ | .sub _ _ _ | .subi _ _ _ | .slt _ _ _ | .lw _ _ _ | .sw _ _ _ | .cache _
      | .nop => s.pc + 4#32

/-- 20_memory.md R42 and R55 with the cache off: a MemoryBus word changes only by a SW to it, or by CACHE 2 writing
back dirty lines kept from before. -/
def Obligations.BusWordsChangeOnlyByStoreOrFlush : Prop :=
  ∀ (s t : State) (w : Nat), Inv s → s.cacheOn = false → step s = .next t → t.mem.read w ≠ s.mem.read w →
    (∃ rt offset rs, currentInstr s = some (.sw rt offset rs) ∧ sint (readReg s rs) + offset = 4 * w ∧
      t.mem.read w = readReg s rt) ∨
    (currentInstr s = some (.cache 2) ∧ ∃ i o, i < s.cfg.numLines ∧ lineDirty s i ∧ isWordOfLine s i o w ∧
      t.mem.read w = lineData s i o)

/-! ### Registers and arithmetic -/

/-- 10_state.md R17: register 0 by R0_HARDWIRED, read and written; plain by default (the spec's decision D5). -/
def Obligations.RegisterZeroFollowsItsParameter : Prop :=
  Config.default.r0Hardwired = false ∧ ∀ (s : State) (v : Word), Inv s →
    (s.cfg.r0Hardwired = true → readReg s 0 = 0#32 ∧ writeReg s 0 v = s) ∧
    (s.cfg.r0Hardwired = false → readReg (writeReg s 0 v) 0 = v)

/-- 40_arithmetic.md R88. -/
def Obligations.AddWritesTheWrappedSum : Prop :=
  ∀ (s : State) (rd rs rt : Nat), Inv s → (Instr.add rd rs rt).wf s.cfg = true →
    decodeWord s.cfg (rWord (BitVec.ofNat 5 rs) (BitVec.ofNat 5 rt) (BitVec.ofNat 5 rd) 0#5 0b100000#6) =
      .instr (.add rd rs rt) ∧
    ∃ t, exec (.add rd rs rt) s = .next t ∧
      RegWritten t rd (word (sint (readReg s rs) + sint (readReg s rt))) ∧
      t.pc = s.pc + 4#32 ∧ KeepsAllBut (some rd) s t ∧ KeepsMemory s t

/-- 40_arithmetic.md R89. -/
def Obligations.AddiWritesTheWrappedSum : Prop :=
  ∀ (s : State) (rt rs : Nat) (immd : Int), Inv s → (Instr.addi rt rs immd).wf s.cfg = true →
    decodeWord s.cfg (iWord 0b001000#6 (BitVec.ofNat 5 rs) (BitVec.ofNat 5 rt) (BitVec.ofInt 16 immd)) =
      .instr (.addi rt rs immd) ∧
    ∃ t, exec (.addi rt rs immd) s = .next t ∧
      RegWritten t rt (word (sint (readReg s rs) + immd)) ∧
      t.pc = s.pc + 4#32 ∧ KeepsAllBut (some rt) s t ∧ KeepsMemory s t

/-- 40_arithmetic.md R90. -/
def Obligations.SubWritesTheWrappedDifference : Prop :=
  ∀ (s : State) (rd rs rt : Nat), Inv s → (Instr.sub rd rs rt).wf s.cfg = true →
    decodeWord s.cfg (rWord (BitVec.ofNat 5 rs) (BitVec.ofNat 5 rt) (BitVec.ofNat 5 rd) 0#5 0b100010#6) =
      .instr (.sub rd rs rt) ∧
    ∃ t, exec (.sub rd rs rt) s = .next t ∧
      RegWritten t rd (word (sint (readReg s rs) - sint (readReg s rt))) ∧
      t.pc = s.pc + 4#32 ∧ KeepsAllBut (some rd) s t ∧ KeepsMemory s t

/-- 40_arithmetic.md R91. -/
def Obligations.SubiWritesTheWrappedDifference : Prop :=
  ∀ (s : State) (rd rs : Nat) (immd : Int), Inv s → (Instr.subi rd rs immd).wf s.cfg = true →
    decodeWord s.cfg (iWord 0b011000#6 (BitVec.ofNat 5 rs) (BitVec.ofNat 5 rd) (BitVec.ofInt 16 immd)) =
      .instr (.subi rd rs immd) ∧
    ∃ t, exec (.subi rd rs immd) s = .next t ∧
      RegWritten t rd (word (sint (readReg s rs) - immd)) ∧
      t.pc = s.pc + 4#32 ∧ KeepsAllBut (some rd) s t ∧ KeepsMemory s t

/-- 40_arithmetic.md R92. -/
def Obligations.SltWritesTheSignedCompare : Prop :=
  ∀ (s : State) (rd rs rt : Nat), Inv s → (Instr.slt rd rs rt).wf s.cfg = true →
    decodeWord s.cfg (rWord (BitVec.ofNat 5 rs) (BitVec.ofNat 5 rt) (BitVec.ofNat 5 rd) 0#5 0b101010#6) =
      .instr (.slt rd rs rt) ∧
    ∃ t, exec (.slt rd rs rt) s = .next t ∧
      RegWritten t rd (if sint (readReg s rs) < sint (readReg s rt) then 1#32 else 0#32) ∧
      t.pc = s.pc + 4#32 ∧ KeepsAllBut (some rd) s t ∧ KeepsMemory s t

/-! ### Control transfer -/

/-- 41_control.md R94. -/
def Obligations.BneBranchesWhenTheRegistersDiffer : Prop :=
  ∀ (s : State) (rs rt : Nat) (offset : Int), Inv s → (Instr.bne rs rt offset).wf s.cfg = true →
    decodeWord s.cfg (iWord 0b000101#6 (BitVec.ofNat 5 rs) (BitVec.ofNat 5 rt) (BitVec.ofInt 16 offset)) =
      .instr (.bne rs rt offset) ∧
    ∃ t, exec (.bne rs rt offset) s = .next t ∧
      (readReg s rs ≠ readReg s rt → t.pc = word (uint s.pc + 4 + offset * 4)) ∧
      (readReg s rs = readReg s rt → t.pc = s.pc + 4#32) ∧
      KeepsAllBut none s t ∧ KeepsMemory s t ∧ EndIsChecked t

/-- 41_control.md R95. -/
def Obligations.JumpSetsThePc : Prop :=
  ∀ (s : State) (target : Nat), Inv s → (Instr.j target).wf s.cfg = true →
    decodeWord s.cfg (jWord 0b000010#6 (BitVec.ofNat 26 target)) = .instr (.j target) ∧
    ∃ t, exec (.j target) s = .next t ∧ uint t.pc = target * 4 ∧
      KeepsAllBut none s t ∧ KeepsMemory s t ∧ EndIsChecked t

/-- 41_control.md R96. -/
def Obligations.JumpAndLinkWritesRegisterSeven : Prop :=
  ∀ (s : State) (target : Nat), Inv s → (Instr.jal target).wf s.cfg = true →
    decodeWord s.cfg (jWord 0b000011#6 (BitVec.ofNat 26 target)) = .instr (.jal target) ∧
    ∃ t, exec (.jal target) s = .next t ∧ readReg t 7 = s.pc + 4#32 ∧ uint t.pc = target * 4 ∧
      KeepsAllBut (some 7) s t ∧ KeepsMemory s t ∧ EndIsChecked t

/-! ### Loads and stores -/

/-- 42_loadstore.md R100 with the cache off (20_memory.md R40, R55): the MemoryBus word, read past any line. -/
def Obligations.LwWithTheCacheOff : Prop :=
  ∀ (s : State) (rt rs : Nat) (offset : Int), Inv s → (Instr.lw rt offset rs).wf s.cfg = true → s.cacheOn = false →
    let ea := sint (readReg s rs) + offset
    ea % 4 = 0 → 0 ≤ ea → ea < s.cfg.capacity →
    decodeWord s.cfg (iWord 0b100011#6 (BitVec.ofNat 5 rs) (BitVec.ofNat 5 rt) (BitVec.ofInt 16 offset)) =
      .instr (.lw rt offset rs) ∧
    ∃ t, exec (.lw rt offset rs) s = .next t ∧ RegWritten t rt (s.mem.read (ea / 4).toNat) ∧
      t.pc = s.pc + 4#32 ∧ KeepsAllBut (some rt) s t ∧ KeepsMemory s t

/-- 42_loadstore.md R100 with the cache on (20_memory.md R46, R47): the line's word, present on a hit, filled from the
MemoryBus on a miss after the write-back of a dirty line; the one other change is that line and that write-back. -/
def Obligations.LwThroughTheCache : Prop :=
  ∀ (s : State) (rt rs : Nat) (offset : Int), Inv s → (Instr.lw rt offset rs).wf s.cfg = true → s.cacheOn = true →
    let ea := sint (readReg s rs) + offset
    ea % 4 = 0 → 0 ≤ ea → ea < s.cfg.capacity →
    ∃ t, exec (.lw rt offset rs) s = .next t ∧
      RegWritten t rt (lineAfterAccess s ea (offsetOf s.cfg ea)) ∧
      t.pc = s.pc + 4#32 ∧ KeepsAllBut (some rt) s t ∧ t.cacheOn = true ∧
      (∀ w, t.mem.read w = memAfterAccess s ea w) ∧
      (hits s ea = true → t.lines = s.lines) ∧
      (∀ i, i ≠ indexOf s.cfg ea → lineAt t i = lineAt s i) ∧
      (lineAt t (indexOf s.cfg ea)).valid = true ∧ (lineAt t (indexOf s.cfg ea)).tag = tagOf s.cfg ea ∧
      (hits s ea = false → (lineAt t (indexOf s.cfg ea)).dirty = false) ∧
      (∀ o, o < s.cfg.blockSize → lineData t (indexOf s.cfg ea) o = lineAfterAccess s ea o)

/-- 42_loadstore.md R101 with the cache off (20_memory.md R41, R55): the MemoryBus word, and no line. -/
def Obligations.SwWithTheCacheOff : Prop :=
  ∀ (s : State) (rt rs : Nat) (offset : Int), Inv s → (Instr.sw rt offset rs).wf s.cfg = true → s.cacheOn = false →
    let ea := sint (readReg s rs) + offset
    ea % 4 = 0 → 0 ≤ ea → ea < s.cfg.capacity →
    decodeWord s.cfg (iWord 0b101011#6 (BitVec.ofNat 5 rs) (BitVec.ofNat 5 rt) (BitVec.ofInt 16 offset)) =
      .instr (.sw rt offset rs) ∧
    ∃ t, exec (.sw rt offset rs) s = .next t ∧ t.mem.read (ea / 4).toNat = readReg s rt ∧
      (∀ w, w ≠ (ea / 4).toNat → t.mem.read w = s.mem.read w) ∧
      t.pc = s.pc + 4#32 ∧ KeepsAllBut none s t ∧ t.cacheOn = s.cacheOn ∧ t.lines = s.lines

/-- 42_loadstore.md R101 with the cache on (20_memory.md R46, R48, R49): the line's word and its dirty bit; the
MemoryBus changes only by the write-back of a dirty line on a miss. -/
def Obligations.SwThroughTheCache : Prop :=
  ∀ (s : State) (rt rs : Nat) (offset : Int), Inv s → (Instr.sw rt offset rs).wf s.cfg = true → s.cacheOn = true →
    let ea := sint (readReg s rs) + offset
    ea % 4 = 0 → 0 ≤ ea → ea < s.cfg.capacity →
    ∃ t, exec (.sw rt offset rs) s = .next t ∧
      t.pc = s.pc + 4#32 ∧ KeepsAllBut none s t ∧ t.cacheOn = true ∧
      (∀ w, t.mem.read w = memAfterAccess s ea w) ∧
      (∀ i, i ≠ indexOf s.cfg ea → lineAt t i = lineAt s i) ∧
      (lineAt t (indexOf s.cfg ea)).valid = true ∧ (lineAt t (indexOf s.cfg ea)).tag = tagOf s.cfg ea ∧
      (lineAt t (indexOf s.cfg ea)).dirty = true ∧
      (∀ o, o < s.cfg.blockSize → lineData t (indexOf s.cfg ea) o =
        if o = offsetOf s.cfg ea then readReg s rt else lineAfterAccess s ea o)

/-- 60_exceptions.md R108 with 20_memory.md R37: LW and SW raise AddressError, with nothing changed, at an address that
is misaligned, negative or beyond the MemoryBus, whatever the cache mode. -/
def Obligations.InvalidAddressRaisesAddressError : Prop :=
  ∀ (s : State) (rt rs : Nat) (offset : Int),
    let ea := sint (readReg s rs) + offset
    ea % 4 ≠ 0 ∨ ea < 0 ∨ (s.cfg.capacity : Int) ≤ ea →
    (∃ t, exec (.lw rt offset rs) s = .next t ∧ Raised .addressError s t) ∧
    (∃ t, exec (.sw rt offset rs) s = .next t ∧ Raised .addressError s t)

/-! ### System -/

/-- 20_memory.md R52 through 43_system.md R102's codes 0 and 1: the mode and nothing else (but the pc's advance); no
line is flushed or lost. -/
def Obligations.CacheCodesSwitchTheMode : Prop :=
  ∀ (s : State), Inv s → ∀ on : Bool,
    let code : Int := if on then 1 else 0
    decodeWord s.cfg (iWord 0b101111#6 0#5 0#5 (BitVec.ofInt 16 code)) = .instr (.cache code) ∧
    ∃ t, exec (.cache code) s = .next t ∧ t.cacheOn = on ∧ t.pc = s.pc + 4#32 ∧ KeepsAllBut none s t ∧
      t.lines = s.lines ∧ ∀ w, t.mem.read w = s.mem.read w

/-- 43_system.md R103 with 20_memory.md R50: CACHE 2 flushes in either mode (the spec's decision D29) and leaves the
mode as it was; a second one writes nothing more. -/
def Obligations.CacheTwoFlushesOnce : Prop :=
  ∀ s : State, Inv s →
    decodeWord s.cfg (iWord 0b101111#6 0#5 0#5 2#16) = .instr (.cache 2) ∧
    ∃ t, exec (.cache 2) s = .next t ∧ Flushed s t ∧ t.cacheOn = s.cacheOn ∧ t.pc = s.pc + 4#32 ∧
      KeepsAllBut none s t ∧ ∃ u, exec (.cache 2) t = .next u ∧ ∀ w, u.mem.read w = t.mem.read w

/-- 43_system.md R104. -/
def Obligations.NopOnlyAdvancesThePc : Prop :=
  ∀ s : State,
    decodeWord s.cfg 0x00000000#32 = .instr .nop ∧
    (∀ w : Word, w.extractLsb' 26 6 = 0#6 → w.extractLsb' 0 6 = 0#6 → w ≠ 0#32 →
      decodeWord s.cfg w = .malformed .nop) ∧
    ∃ t, exec .nop s = .next t ∧ t.pc = s.pc + 4#32 ∧ KeepsAllBut none s t ∧ KeepsMemory s t

/-- 43_system.md R105. HALT_ADVANCES_PC is the spec's decision D11; both readings are stated. -/
def Obligations.HaltFlushesAndStops : Prop :=
  ∀ s : State, Inv s →
    decodeWord s.cfg (jWord 0b111111#6 0#26) = .instr .halt ∧
    ∃ t, exec .halt s = .next t ∧ t.status = .halted ∧
      t.pc = (if s.cfg.haltAdvancesPc = true then s.pc + 4#32 else s.pc) ∧
      (if s.cacheOn = true then Flushed s t else KeepsMemory s t) ∧
      t.cacheOn = s.cacheOn ∧ (∀ r, readReg t r = readReg s r) ∧ t.cfg = s.cfg ∧ t.imem = s.imem ∧
      ∀ u, step t ≠ .next u

/-! ### The cache and memory as a whole -/

/-- 20_memory.md R43 and R44, in every well-formed geometry: the three address fields are in range and the base
reconstruction undoes the decomposition. -/
def Obligations.AddressFieldsReassemble : Prop :=
  ∀ (c : Config) (b : Int), c.wf = true → b % 4 = 0 → 0 ≤ b → b < c.capacity →
    baseByte c (tagOf c b) (indexOf c b) + 4 * offsetOf c b = b ∧
    tagOf c b < 2 ^ c.tagBits ∧ indexOf c b < c.numLines ∧ offsetOf c b < c.blockSize

/-- 20_memory.md R51, which the spec derives from R50: a second flush changes nothing. -/
def Obligations.FlushIsIdempotent : Prop :=
  ∀ s t : State, Inv s → cacheFlush s = some t → cacheFlush t = some t

/-- 20_memory.md R53: after a flush, with no clean line bypassed, the MemoryBus holds what every load through the
cache would have returned. -/
def Obligations.FlushedMemoryIsWhatLoadsSaw : Prop :=
  ∀ s : State, Inv s → CleanLinesMatch s →
    ∃ t, cacheFlush s = some t ∧ ∀ w, w < s.cfg.memWords → t.mem.read w = visibleWord s w

/-- 20_memory.md R62 (b): while the cache is on, the cache is invisible. A step changes what loads see at the word a
SW stores to and nowhere else, a LW returns what loads see, and clean lines go on matching the MemoryBus. -/
def Obligations.CacheOnIsTransparent : Prop :=
  ∀ s t : State, Inv s → CleanLinesMatch s → s.cacheOn = true → step s = .next t →
    CleanLinesMatch t ∧
    (∀ w, w < s.cfg.memWords →
      (∀ rt offset rs, currentInstr s = some (.sw rt offset rs) → sint (readReg s rs) + offset ≠ 4 * w) →
      visibleWord t w = visibleWord s w) ∧
    (∀ rt offset rs w, currentInstr s = some (.sw rt offset rs) → w < s.cfg.memWords →
      sint (readReg s rs) + offset = 4 * w → visibleWord t w = readReg s rt) ∧
    (∀ rt offset rs w, currentInstr s = some (.lw rt offset rs) → w < s.cfg.memWords →
      sint (readReg s rs) + offset = 4 * w → RegWritten t rt (visibleWord s w))

/-- 20_memory.md R63 (b) and (c): a store with the cache off to a word a valid line still holds is hidden from a load
once the cache is on again, and is lost to the flush of that line if it was dirty. -/
def Obligations.SwitchedModesHideAStore : Prop :=
  ∀ (s : State) (rt rs dst : Nat) (offset : Int), Inv s → (Instr.sw rt offset rs).wf s.cfg = true →
    dst < s.cfg.numRegs → s.cacheOn = false →
    let ea := sint (readReg s rs) + offset
    validAddr s.cfg ea = true → hits s ea = true →
    ∃ t, exec (.sw rt offset rs) s = .next t ∧ t.mem.read (ea / 4).toNat = readReg s rt ∧
      (∃ u v, exec (.cache 1) t = .next u ∧ exec (.lw dst offset rs) u = .next v ∧
        RegWritten v dst (lineWord s ea)) ∧
      ((lineAt s (indexOf s.cfg ea)).dirty = true →
        ∃ u, exec (.cache 2) t = .next u ∧ u.mem.read (ea / 4).toNat = lineWord s ea)

/-- 10_state.md R30: the tag and data of an invalid line are never read; two states that differ only there go through
alike steps. -/
def Obligations.InvalidLinesAreNeverRead : Prop :=
  ∀ s s' t : State, Inv s → Inv s' → ObservablyEqual s s' → step s = .next t →
    ∃ t', step s' = .next t' ∧ ObservablyEqual t t'

/-! ### The host's ports -/

/-- 70_reset_and_hazards.md R136 and R130: a ceiling stop with the status still RUNNING is the state after exactly that
many steps; a run that ended before the ceiling is not changed by a higher one. -/
def Obligations.CeilingStopsBetweenSteps : Prop :=
  ∀ (s : State) (n : Nat), s.cfg.wf = true →
    ((State.runCeiling n s).status = .running → core.run n s = .next (State.runCeiling n s)) ∧
    ((State.runCeiling n s).status ≠ .running → ∀ m, State.runCeiling (n + m) s = State.runCeiling n s)

/-- 70_reset_and_hazards.md R133 to R135: what the snapshots report; a memory snapshot is the MemoryBus, whatever the
cache holds. -/
def Obligations.SnapshotsReportTheState : Prop :=
  ∀ s : State,
    (s.isHalted = true ↔ s.status = .halted) ∧ s.snapshotPc = uint s.pc ∧
    s.snapshotRegs.length = s.cfg.numRegs ∧
    (∀ i, i < s.cfg.numRegs → s.snapshotRegs[i]? = some (sint (readReg s i))) ∧
    s.snapshotMem.length = s.cfg.memWords ∧
    (∀ w, w < s.cfg.memWords → s.snapshotMem[w]? = some (s.mem.read w)) ∧
    (∀ r, s.errorReport = some r ↔ s.status = .error r)
end

