-- ==== Sys2Proof/Laws/Config.lean ====
section
/-! SUPPORT. What a well-formed configuration gives: the sizes are powers of two and multiply up to MEM_WORDS, a
block's base is arithmetic, and the decomposition of a word index is division with remainder. -/

namespace Sys2Proof

namespace Config

variable {c : Config}

theorem isPowerOfTwo_iff {n : Nat} : isPowerOfTwo n = true ↔ 2 ^ Nat.log2 n = n := by
  simp [isPowerOfTwo]

/-- R8 clause by clause. -/
theorem wf_iff : c.wf = true ↔ 8 ≤ c.numRegs ∧ c.numRegs ≤ 32 ∧ 2 ^ Nat.log2 c.capacity = c.capacity ∧
    c.capacity % 4 = 0 ∧ 2 ^ c.offsetBits = c.blockSize ∧ 2 ^ c.indexBits = c.numLines ∧
    c.offsetBits + c.indexBits ≤ c.wordAddrBits := by
  unfold wf isPowerOfTwo offsetBits indexBits
  simp only [Bool.and_eq_true, decide_eq_true_eq, beq_iff_eq, and_assoc]

theorem default_wf : Config.default.wf = true := by decide

theorem numRegs_le (h : c.wf = true) : c.numRegs ≤ 32 := (wf_iff.1 h).2.1

theorem linkReg_lt (h : c.wf = true) : linkReg < c.numRegs := by
  have := (wf_iff.1 h).1
  unfold linkReg; omega

theorem two_pow_offsetBits (h : c.wf = true) : 2 ^ c.offsetBits = c.blockSize := (wf_iff.1 h).2.2.2.2.1

theorem two_pow_indexBits (h : c.wf = true) : 2 ^ c.indexBits = c.numLines := (wf_iff.1 h).2.2.2.2.2.1

theorem blockSize_pos (h : c.wf = true) : 0 < c.blockSize := by
  rw [← two_pow_offsetBits h]; positivity

theorem numLines_pos (h : c.wf = true) : 0 < c.numLines := by
  rw [← two_pow_indexBits h]; positivity

/-- CAPACITY is MEM_WORDS words. -/
theorem capacity_eq (h : c.wf = true) : c.capacity = 4 * c.memWords := by
  have := (wf_iff.1 h).2.2.2.1
  unfold memWords; omega

/-- MEM_WORDS is the power of two WORD_ADDR_BITS says. -/
theorem two_pow_wordAddrBits (h : c.wf = true) : 2 ^ c.wordAddrBits = c.memWords := by
  obtain ⟨-, -, hp, hm, -, -, -⟩ := wf_iff.1 h
  unfold wordAddrBits memWords
  rw [← hp] at hm ⊢
  generalize Nat.log2 c.capacity = k at hm
  match k, hm with
  | 0, hm => simp at hm
  | 1, hm => simp at hm
  | k + 2, _ =>
    have : 2 ^ (k + 2) / 4 = 2 ^ k := by rw [pow_add]; omega
    rw [this, Nat.log2_two_pow]

/-- The three address fields together cover a word index exactly (R7, R43). -/
theorem geometry (h : c.wf = true) : 2 ^ c.tagBits * (c.blockSize * c.numLines) = c.memWords := by
  have hb := (wf_iff.1 h).2.2.2.2.2.2
  rw [← two_pow_wordAddrBits h, ← two_pow_offsetBits h, ← two_pow_indexBits h, ← pow_add, ← pow_add]
  congr 1
  unfold tagBits; omega

end Config

namespace Machine

variable {c : Config}

/-- R44's shifts and `or` as arithmetic. -/
theorem baseWord_eq (h : c.wf = true) (t : Nat) {i : Nat} (hi : i < c.numLines) :
    baseWord c t i = t * (c.blockSize * c.numLines) + i * c.blockSize := by
  have hlt : i <<< c.offsetBits < 2 ^ (c.offsetBits + c.indexBits) := by
    rw [Nat.shiftLeft_eq, pow_add, Nat.mul_comm i]
    rw [← Config.two_pow_indexBits h] at hi
    exact Nat.mul_lt_mul_of_pos_left hi (by positivity)
  unfold baseWord
  rw [Nat.shiftLeft_eq t, Nat.mul_comm t, ← Nat.two_pow_add_eq_or_of_lt hlt, Nat.shiftLeft_eq, pow_add,
    Config.two_pow_offsetBits h, Config.two_pow_indexBits h, Nat.mul_comm _ t]

/-- Every word of a block lies in the MemoryBus. -/
theorem blockWord_lt (h : c.wf = true) {t i o : Nat} (ht : t < 2 ^ c.tagBits) (hi : i < c.numLines)
    (ho : o < c.blockSize) : baseWord c t i + o < c.memWords := by
  rw [baseWord_eq h t hi, ← Config.geometry h]
  have h1 : (i + 1) * c.blockSize ≤ c.numLines * c.blockSize := Nat.mul_le_mul_right _ hi
  have h2 : (t + 1) * (c.blockSize * c.numLines) ≤ 2 ^ c.tagBits * (c.blockSize * c.numLines) :=
    Nat.mul_le_mul_right _ ht
  rw [Nat.add_mul] at h1 h2
  rw [Nat.mul_comm c.numLines] at h1
  omega

/-- A whole block lies in the MemoryBus. -/
theorem block_le (h : c.wf = true) {t i : Nat} (ht : t < 2 ^ c.tagBits) (hi : i < c.numLines) :
    baseWord c t i + c.blockSize ≤ c.memWords := by
  have hB := Config.blockSize_pos h
  have := blockWord_lt h ht hi (o := c.blockSize - 1) (by omega)
  omega

/-- The offset, index and tag of word `o` of block (t, i) are `o`, `i` and `t` (R43 undoes R44). -/
theorem decompose_blockWord (h : c.wf = true) {t i o : Nat} (hi : i < c.numLines) (ho : o < c.blockSize) :
    (baseWord c t i + o) % c.blockSize = o ∧ (baseWord c t i + o) / c.blockSize % c.numLines = i ∧
    (baseWord c t i + o) / (c.blockSize * c.numLines) = t := by
  have hB := Config.blockSize_pos h
  have hN := Config.numLines_pos h
  have hw : baseWord c t i + o = o + c.blockSize * (i + c.numLines * t) := by
    rw [baseWord_eq h t hi]; ring
  have hq : (baseWord c t i + o) / c.blockSize = i + c.numLines * t := by
    rw [hw, Nat.add_mul_div_left _ _ hB, Nat.div_eq_of_lt ho, Nat.zero_add]
  refine ⟨?_, ?_, ?_⟩
  · rw [hw, Nat.add_mul_mod_self_left, Nat.mod_eq_of_lt ho]
  · rw [hq, Nat.add_mul_mod_self_left, Nat.mod_eq_of_lt hi]
  · rw [← Nat.div_div_eq_div_mul, hq, Nat.add_mul_div_left _ _ hN, Nat.div_eq_of_lt hi, Nat.zero_add]

/-- A word index is its block's base plus its offset (R44 undoes R43). -/
theorem recompose_word (h : c.wf = true) (w : Nat) :
    baseWord c (w / (c.blockSize * c.numLines)) (w / c.blockSize % c.numLines) + w % c.blockSize = w := by
  rw [baseWord_eq h _ (Nat.mod_lt _ (Config.numLines_pos h)), ← Nat.div_div_eq_div_mul]
  have h1 := Nat.div_add_mod w c.blockSize
  have h2 := Nat.div_add_mod (w / c.blockSize) c.numLines
  generalize w / c.blockSize / c.numLines = q at *
  generalize w / c.blockSize % c.numLines = r at *
  rw [← h2] at h1
  nlinarith

/-- The tag of a MemoryBus word fits TAG_BITS. -/
theorem tag_lt (h : c.wf = true) {w : Nat} (hw : w < c.memWords) :
    w / (c.blockSize * c.numLines) < 2 ^ c.tagBits := by
  rw [← Config.geometry h] at hw
  exact Nat.div_lt_of_lt_mul (by rwa [Nat.mul_comm] at hw)

end Machine

end Sys2Proof
end

