-- ==== Sys2Proof/Laws/Memory.lean ====
section
/-! SUPPORT. The store of words: read after write, the canonical form kept, and equal contents are equal data. -/

namespace Sys2Proof.Machine

theorem readCells_putCell (w : Nat) (v : Word) (rest : List (Nat × Word)) (a : Nat)
    (h : v = 0#32 → readCells rest w = 0#32) :
    readCells (putCell w v rest) a = if w = a then v else readCells rest a := by
  unfold putCell
  split
  · next hv =>
    split
    · next hw => rw [← hw, h hv, hv]
    · rfl
  · rfl

/-- An index below every listed one reads as `word(0)`. -/
theorem readCells_of_lt : ∀ {l : List (Nat × Word)} {w : Nat}, (∀ d ∈ l, w < d.1) → readCells l w = 0#32
  | [], _, _ => rfl
  | (a, x) :: rest, w, h => by
    have ha : w < a := h (a, x) (by simp)
    have hrest : readCells rest w = 0#32 := readCells_of_lt fun d hd => h d (List.mem_cons_of_mem _ hd)
    simp [readCells, show a ≠ w by omega, hrest]

theorem cellsWf_cons {c : Nat × Word} {rest : List (Nat × Word)} :
    cellsWf (c :: rest) = true ↔ c.2 ≠ 0#32 ∧ (∀ d ∈ rest, c.1 < d.1) ∧ cellsWf rest = true := by
  simp [cellsWf, and_assoc]

/-- Read after write, at the written index and at every other. -/
theorem readCells_writeCells : ∀ {l : List (Nat × Word)}, cellsWf l = true → ∀ (w : Nat) (v : Word) (a : Nat),
    readCells (writeCells w v l) a = if w = a then v else readCells l a
  | [], _, w, v, a => readCells_putCell w v [] a fun _ => rfl
  | (b, x) :: rest, h, w, v, a => by
    obtain ⟨_, hlt, hrest⟩ := cellsWf_cons.1 h
    unfold writeCells
    split
    · next hwb =>
      exact readCells_putCell w v _ a fun _ => readCells_of_lt (by
        intro d hd
        rcases List.mem_cons.1 hd with rfl | hd
        · exact hwb
        · have := hlt d hd; simp only at this; omega)
    split
    · next hwb =>
      subst hwb
      rw [readCells_putCell w v rest a fun _ => readCells_of_lt hlt]
      simp only [readCells]
      split <;> rfl
    · next hwb =>
      simp only [readCells, readCells_writeCells hrest w v a]
      split
      · next hba => simp [show w ≠ a by omega]
      · rfl

theorem mem_putCell {w : Nat} {v : Word} {rest : List (Nat × Word)} {d : Nat × Word}
    (h : d ∈ putCell w v rest) : d = (w, v) ∨ d ∈ rest := by
  unfold putCell at h
  split at h
  · exact .inr h
  · simpa using h

theorem mem_writeCells {w : Nat} {v : Word} : ∀ {l : List (Nat × Word)} {d : Nat × Word},
    d ∈ writeCells w v l → d = (w, v) ∨ d ∈ l
  | [], _, h => mem_putCell h
  | (b, x) :: rest, d, h => by
    unfold writeCells at h
    split at h
    · exact mem_putCell h
    split at h
    · exact (mem_putCell h).imp_right fun h' => by simp [h']
    · rcases List.mem_cons.1 h with h' | h'
      · exact .inr (by simp [h'])
      · exact (mem_writeCells h').imp_right fun h'' => by simp [h'']

theorem cellsWf_putCell {w : Nat} {v : Word} {rest : List (Nat × Word)} (hlt : ∀ d ∈ rest, w < d.1)
    (h : cellsWf rest = true) : cellsWf (putCell w v rest) = true := by
  unfold putCell
  split
  · exact h
  · next hv => exact cellsWf_cons.2 ⟨hv, hlt, h⟩

/-- A write keeps the canonical form. -/
theorem cellsWf_writeCells {w : Nat} {v : Word} : ∀ {l : List (Nat × Word)}, cellsWf l = true →
    cellsWf (writeCells w v l) = true
  | [], _ => cellsWf_putCell (by simp) rfl
  | (b, x) :: rest, h => by
    obtain ⟨hx, hlt, hrest⟩ := cellsWf_cons.1 h
    unfold writeCells
    split
    · next hwb =>
      refine cellsWf_putCell (fun d hd => ?_) h
      rcases List.mem_cons.1 hd with rfl | hd
      · exact hwb
      · have := hlt d hd; simp only at this; omega
    split
    · next hwb => subst hwb; exact cellsWf_putCell hlt hrest
    · next h1 h2 =>
      refine cellsWf_cons.2 ⟨hx, fun d hd => ?_, cellsWf_writeCells hrest⟩
      rcases mem_writeCells hd with rfl | hd
      · simp only; omega
      · exact hlt d hd

/-- Read after write of the MemoryBus. -/
theorem Memory.read_write {m : Memory} (h : m.wf = true) (w : Nat) (v : Word) (a : Nat) :
    (m.write w v).read a = if w = a then v else m.read a :=
  readCells_writeCells h w v a

theorem Memory.wf_write {m : Memory} (h : m.wf = true) (w : Nat) (v : Word) : (m.write w v).wf = true :=
  cellsWf_writeCells h

theorem Memory.inRange_write {c : Config} {m : Memory} (h : m.inRange c = true) {w : Nat} (hw : w < c.memWords)
    (v : Word) : (m.write w v).inRange c = true := by
  simp only [Memory.inRange, List.all_eq_true, decide_eq_true_eq] at h ⊢
  intro d hd
  rcases mem_writeCells hd with rfl | hd
  · exact hw
  · exact h d hd

@[simp] theorem Memory.wf_zero : Memory.zero.wf = true := rfl

@[simp] theorem Memory.read_zero (w : Nat) : Memory.zero.read w = 0#32 := rfl

@[simp] theorem Memory.inRange_zero (c : Config) : Memory.zero.inRange c = true := rfl

/-- The canonical form is one: two canonical lists that read alike everywhere are the same list. -/
theorem cells_eq_of_read : ∀ {l l' : List (Nat × Word)}, cellsWf l = true → cellsWf l' = true →
    (∀ a, readCells l a = readCells l' a) → l = l'
  | [], [], _, _, _ => rfl
  | [], (b, y) :: r', _, h', he => by
    have := he b
    simp [readCells] at this
    exact absurd this.symm (cellsWf_cons.1 h').1
  | (a, x) :: r, [], h, _, he => by
    have := he a
    simp [readCells] at this
    exact absurd this (cellsWf_cons.1 h).1
  | (a, x) :: r, (b, y) :: r', h, h', he => by
    obtain ⟨hx, hlt, hr⟩ := cellsWf_cons.1 h
    obtain ⟨hy, hlt', hr'⟩ := cellsWf_cons.1 h'
    have hab : a = b := by
      rcases Nat.lt_trichotomy a b with hl | he' | hl
      · have := he a
        rw [readCells_of_lt (l := (b, y) :: r') (w := a)] at this
        · simp [readCells] at this; exact absurd this hx
        · intro d hd
          rcases List.mem_cons.1 hd with rfl | hd
          · exact hl
          · have := hlt' d hd; simp only at this; omega
      · exact he'
      · have := he b
        rw [readCells_of_lt (l := (a, x) :: r) (w := b)] at this
        · simp [readCells] at this; exact absurd this.symm hy
        · intro d hd
          rcases List.mem_cons.1 hd with rfl | hd
          · exact hl
          · have := hlt d hd; simp only at this; omega
    subst hab
    have hxy : x = y := by simpa [readCells] using he a
    subst hxy
    rw [cells_eq_of_read hr hr' fun w => ?_]
    by_cases hw : a = w
    · subst hw
      rw [readCells_of_lt hlt, readCells_of_lt hlt']
    · simpa [readCells, hw] using he w

theorem Memory.eq_of_read {m m' : Memory} (h : m.wf = true) (h' : m'.wf = true)
    (he : ∀ a, m.read a = m'.read a) : m = m' := by
  cases m; cases m'
  exact congrArg Memory.mk (cells_eq_of_read h h' he)

end Sys2Proof.Machine
end

