-- ==== Sys2Proof/Laws/Bus.lean ====
section
/-! SUPPORT. What a MemoryBus access does, and what a block of them does, in word indices. -/

namespace Sys2Proof.Machine

variable {c : Config} {m : Memory}

@[simp] theorem wordIndex_mul_four (w : Nat) : wordIndex ((w * 4 : Nat) : Int) = w := by
  unfold wordIndex; omega

theorem validAddr_iff {b : Int} :
    validAddr c b = true ↔ b % 4 = 0 ∧ 0 ≤ b ∧ b < c.capacity := by
  simp [validAddr, and_assoc]

/-- A valid byte address is four times a word index of the MemoryBus. -/
theorem validAddr_elim (h : c.wf = true) {b : Int} (hb : validAddr c b = true) :
    b = (wordIndex b * 4 : Nat) ∧ wordIndex b < c.memWords := by
  obtain ⟨h1, h2, h3⟩ := validAddr_iff.1 hb
  have := Config.capacity_eq h
  unfold wordIndex
  omega

theorem validAddr_mul_four (h : c.wf = true) {w : Nat} (hw : w < c.memWords) :
    validAddr c ((w * 4 : Nat) : Int) = true := by
  have := Config.capacity_eq h
  refine validAddr_iff.2 ⟨?_, ?_, ?_⟩ <;> omega

theorem busLoad_of_valid {b : Int} (hb : validAddr c b = true) :
    busLoad c m b = some (m.read (wordIndex b)) := by
  simp [busLoad, hb]

theorem busStore_of_valid {b : Int} (hb : validAddr c b = true) (v : Word) :
    busStore c m b v = some (m.write (wordIndex b) v) := by
  simp [busStore, hb]

/-- A block of loads inside the MemoryBus answers the words at consecutive indices. -/
theorem busLoadBlock_eq (h : c.wf = true) : ∀ (n w : Nat), w + n ≤ c.memWords →
    busLoadBlock c m ((w * 4 : Nat) : Int) n = some ((List.range n).map fun o => m.read (w + o))
  | 0, _, _ => rfl
  | n + 1, w, hw => by
    have ih := busLoadBlock_eq h n (w + 1) (by omega)
    have hb : ((w * 4 : Nat) : Int) + 4 = ((w + 1) * 4 : Nat) := by omega
    simp only [busLoadBlock, hb, ih, busLoad_of_valid (validAddr_mul_four h (by omega : w < c.memWords)),
      wordIndex_mul_four, List.range_succ_eq_map, List.map_cons, List.map_map, Nat.add_zero]
    congr 3
    funext o
    simp [Nat.add_assoc, Nat.add_comm 1 o]

/-- A block of stores inside the MemoryBus succeeds, writes the data at consecutive indices and nothing else, and
keeps the canonical form. -/
theorem busStoreBlock_spec (h : c.wf = true) : ∀ (d : List Word) (m : Memory) (w : Nat),
    m.wf = true → m.inRange c = true → w + d.length ≤ c.memWords →
    ∃ m', busStoreBlock c m ((w * 4 : Nat) : Int) d = some m' ∧ m'.wf = true ∧ m'.inRange c = true ∧
      ∀ a, m'.read a = if w ≤ a ∧ a < w + d.length then d.getD (a - w) 0#32 else m.read a
  | [], m, w, hm, hr, _ => ⟨m, rfl, hm, hr, fun a => by simp⟩
  | v :: vs, m, w, hm, hr, hw => by
    simp only [List.length_cons] at hw
    have hw' : w < c.memWords := by omega
    obtain ⟨m', he, hm', hr', hread⟩ := busStoreBlock_spec h vs (m.write w v) (w + 1) (Memory.wf_write hm w v)
      (Memory.inRange_write hr hw' v) (by omega)
    have hb : ((w * 4 : Nat) : Int) + 4 = ((w + 1) * 4 : Nat) := by omega
    refine ⟨m', ?_, hm', hr', fun a => ?_⟩
    · simp only [busStoreBlock, busStore_of_valid (validAddr_mul_four h hw'), wordIndex_mul_four, hb, he]
    · rw [hread a, Memory.read_write hm w v a]
      simp only [List.length_cons]
      by_cases ha : w = a
      · subst ha; simp
      · by_cases hin : w + 1 ≤ a ∧ a < w + 1 + vs.length
        · rw [if_pos hin, if_pos (by omega), show a - w = (a - (w + 1)) + 1 by omega]
          simp
        · rw [if_neg hin, if_neg ha, if_neg (by omega)]

end Sys2Proof.Machine
end

