-- ==== Sys2Proof/Laws/State.lean ====
section
/-! SUPPORT. One lemma for each field of State and each named update of it, so that no proof unfolds a record
update. -/

namespace Sys2Proof.Machine

/-! `setLine` writes the cache line array. -/

@[simp] theorem setLine_cfg (s : State) (i : Nat) (l : CacheLine) : (setLine s i l).cfg = s.cfg := rfl
@[simp] theorem setLine_imem (s : State) (i : Nat) (l : CacheLine) : (setLine s i l).imem = s.imem := rfl
@[simp] theorem setLine_regs (s : State) (i : Nat) (l : CacheLine) : (setLine s i l).regs = s.regs := rfl
@[simp] theorem setLine_pc (s : State) (i : Nat) (l : CacheLine) : (setLine s i l).pc = s.pc := rfl
@[simp] theorem setLine_status (s : State) (i : Nat) (l : CacheLine) : (setLine s i l).status = s.status := rfl
@[simp] theorem setLine_cacheOn (s : State) (i : Nat) (l : CacheLine) : (setLine s i l).cacheOn = s.cacheOn := rfl
@[simp] theorem setLine_lines (s : State) (i : Nat) (l : CacheLine) : (setLine s i l).lines = s.lines.set i l := rfl
@[simp] theorem setLine_mem (s : State) (i : Nat) (l : CacheLine) : (setLine s i l).mem = s.mem := rfl
@[simp] theorem setLine_freeCount (s : State) (i : Nat) (l : CacheLine) : (setLine s i l).freeCount = s.freeCount := rfl

/-! `setMem` writes the MemoryBus. -/

@[simp] theorem setMem_cfg (s : State) (m : Memory) : (setMem s m).cfg = s.cfg := rfl
@[simp] theorem setMem_imem (s : State) (m : Memory) : (setMem s m).imem = s.imem := rfl
@[simp] theorem setMem_regs (s : State) (m : Memory) : (setMem s m).regs = s.regs := rfl
@[simp] theorem setMem_pc (s : State) (m : Memory) : (setMem s m).pc = s.pc := rfl
@[simp] theorem setMem_status (s : State) (m : Memory) : (setMem s m).status = s.status := rfl
@[simp] theorem setMem_cacheOn (s : State) (m : Memory) : (setMem s m).cacheOn = s.cacheOn := rfl
@[simp] theorem setMem_lines (s : State) (m : Memory) : (setMem s m).lines = s.lines := rfl
@[simp] theorem setMem_mem (s : State) (m : Memory) : (setMem s m).mem = m := rfl
@[simp] theorem setMem_freeCount (s : State) (m : Memory) : (setMem s m).freeCount = s.freeCount := rfl

/-! `setEnabled` writes the cache mode. -/

@[simp] theorem setEnabled_cfg (s : State) (on : Bool) : (setEnabled s on).cfg = s.cfg := rfl
@[simp] theorem setEnabled_imem (s : State) (on : Bool) : (setEnabled s on).imem = s.imem := rfl
@[simp] theorem setEnabled_regs (s : State) (on : Bool) : (setEnabled s on).regs = s.regs := rfl
@[simp] theorem setEnabled_pc (s : State) (on : Bool) : (setEnabled s on).pc = s.pc := rfl
@[simp] theorem setEnabled_status (s : State) (on : Bool) : (setEnabled s on).status = s.status := rfl
@[simp] theorem setEnabled_cacheOn (s : State) (on : Bool) : (setEnabled s on).cacheOn = on := rfl
@[simp] theorem setEnabled_lines (s : State) (on : Bool) : (setEnabled s on).lines = s.lines := rfl
@[simp] theorem setEnabled_mem (s : State) (on : Bool) : (setEnabled s on).mem = s.mem := rfl
@[simp] theorem setEnabled_freeCount (s : State) (on : Bool) : (setEnabled s on).freeCount = s.freeCount := rfl

/-! `writeReg` writes the register file. -/

@[simp] theorem writeReg_cfg (s : State) (i : Nat) (v : Word) : (writeReg s i v).cfg = s.cfg := rfl
@[simp] theorem writeReg_imem (s : State) (i : Nat) (v : Word) : (writeReg s i v).imem = s.imem := rfl
@[simp] theorem writeReg_regs (s : State) (i : Nat) (v : Word) : (writeReg s i v).regs = if discards s.cfg i then s.regs else s.regs.set i v := rfl
@[simp] theorem writeReg_pc (s : State) (i : Nat) (v : Word) : (writeReg s i v).pc = s.pc := rfl
@[simp] theorem writeReg_status (s : State) (i : Nat) (v : Word) : (writeReg s i v).status = s.status := rfl
@[simp] theorem writeReg_cacheOn (s : State) (i : Nat) (v : Word) : (writeReg s i v).cacheOn = s.cacheOn := rfl
@[simp] theorem writeReg_lines (s : State) (i : Nat) (v : Word) : (writeReg s i v).lines = s.lines := rfl
@[simp] theorem writeReg_mem (s : State) (i : Nat) (v : Word) : (writeReg s i v).mem = s.mem := rfl
@[simp] theorem writeReg_freeCount (s : State) (i : Nat) (v : Word) : (writeReg s i v).freeCount = s.freeCount := rfl

/-! `setPc` writes the pc. -/

@[simp] theorem setPc_cfg (s : State) (t : Word) : (setPc s t).cfg = s.cfg := rfl
@[simp] theorem setPc_imem (s : State) (t : Word) : (setPc s t).imem = s.imem := rfl
@[simp] theorem setPc_regs (s : State) (t : Word) : (setPc s t).regs = s.regs := rfl
@[simp] theorem setPc_pc (s : State) (t : Word) : (setPc s t).pc = t := rfl
@[simp] theorem setPc_status (s : State) (t : Word) : (setPc s t).status = s.status := rfl
@[simp] theorem setPc_cacheOn (s : State) (t : Word) : (setPc s t).cacheOn = s.cacheOn := rfl
@[simp] theorem setPc_lines (s : State) (t : Word) : (setPc s t).lines = s.lines := rfl
@[simp] theorem setPc_mem (s : State) (t : Word) : (setPc s t).mem = s.mem := rfl
@[simp] theorem setPc_freeCount (s : State) (t : Word) : (setPc s t).freeCount = s.freeCount := rfl

/-! `advancePc` writes the pc. -/

@[simp] theorem advancePc_cfg (s : State) : (advancePc s).cfg = s.cfg := rfl
@[simp] theorem advancePc_imem (s : State) : (advancePc s).imem = s.imem := rfl
@[simp] theorem advancePc_regs (s : State) : (advancePc s).regs = s.regs := rfl
@[simp] theorem advancePc_pc (s : State) : (advancePc s).pc = nextPc s := rfl
@[simp] theorem advancePc_status (s : State) : (advancePc s).status = s.status := rfl
@[simp] theorem advancePc_cacheOn (s : State) : (advancePc s).cacheOn = s.cacheOn := rfl
@[simp] theorem advancePc_lines (s : State) : (advancePc s).lines = s.lines := rfl
@[simp] theorem advancePc_mem (s : State) : (advancePc s).mem = s.mem := rfl
@[simp] theorem advancePc_freeCount (s : State) : (advancePc s).freeCount = s.freeCount := rfl

/-! `raiseError` writes the status and the free-value counter. -/

@[simp] theorem raiseError_cfg (k : ErrorKind) (s : State) : (raiseError k s).cfg = s.cfg := rfl
@[simp] theorem raiseError_imem (k : ErrorKind) (s : State) : (raiseError k s).imem = s.imem := rfl
@[simp] theorem raiseError_regs (k : ErrorKind) (s : State) : (raiseError k s).regs = s.regs := rfl
@[simp] theorem raiseError_pc (k : ErrorKind) (s : State) : (raiseError k s).pc = s.pc := rfl
@[simp] theorem raiseError_status (k : ErrorKind) (s : State) : (raiseError k s).status = .error ⟨k, Config.errorMessage s.freeCount, s.pc⟩ := rfl
@[simp] theorem raiseError_cacheOn (k : ErrorKind) (s : State) : (raiseError k s).cacheOn = s.cacheOn := rfl
@[simp] theorem raiseError_lines (k : ErrorKind) (s : State) : (raiseError k s).lines = s.lines := rfl
@[simp] theorem raiseError_mem (k : ErrorKind) (s : State) : (raiseError k s).mem = s.mem := rfl
@[simp] theorem raiseError_freeCount (k : ErrorKind) (s : State) : (raiseError k s).freeCount = s.freeCount + 1 := rfl

/-! `setHalted` writes the status. -/

@[simp] theorem setHalted_cfg (s : State) : (setHalted s).cfg = s.cfg := rfl
@[simp] theorem setHalted_imem (s : State) : (setHalted s).imem = s.imem := rfl
@[simp] theorem setHalted_regs (s : State) : (setHalted s).regs = s.regs := rfl
@[simp] theorem setHalted_pc (s : State) : (setHalted s).pc = s.pc := rfl
@[simp] theorem setHalted_status (s : State) : (setHalted s).status = .halted := rfl
@[simp] theorem setHalted_cacheOn (s : State) : (setHalted s).cacheOn = s.cacheOn := rfl
@[simp] theorem setHalted_lines (s : State) : (setHalted s).lines = s.lines := rfl
@[simp] theorem setHalted_mem (s : State) : (setHalted s).mem = s.mem := rfl
@[simp] theorem setHalted_freeCount (s : State) : (setHalted s).freeCount = s.freeCount := rfl

/-! `finishWith` writes one register and the pc. -/

@[simp] theorem finishWith_cfg (s : State) (rd : Nat) (v : Word) : (finishWith s rd v).cfg = s.cfg := rfl
@[simp] theorem finishWith_imem (s : State) (rd : Nat) (v : Word) : (finishWith s rd v).imem = s.imem := rfl
@[simp] theorem finishWith_regs (s : State) (rd : Nat) (v : Word) : (finishWith s rd v).regs = if discards s.cfg rd then s.regs else s.regs.set rd v := rfl
@[simp] theorem finishWith_pc (s : State) (rd : Nat) (v : Word) : (finishWith s rd v).pc = nextPc s := rfl
@[simp] theorem finishWith_status (s : State) (rd : Nat) (v : Word) : (finishWith s rd v).status = s.status := rfl
@[simp] theorem finishWith_cacheOn (s : State) (rd : Nat) (v : Word) : (finishWith s rd v).cacheOn = s.cacheOn := rfl
@[simp] theorem finishWith_lines (s : State) (rd : Nat) (v : Word) : (finishWith s rd v).lines = s.lines := rfl
@[simp] theorem finishWith_mem (s : State) (rd : Nat) (v : Word) : (finishWith s rd v).mem = s.mem := rfl
@[simp] theorem finishWith_freeCount (s : State) (rd : Nat) (v : Word) : (finishWith s rd v).freeCount = s.freeCount := rfl

end Sys2Proof.Machine
end

