-- ==== Sys2Proof/Laws/Cache.lean ====
section
/-! SUPPORT. What each cache operation can do: the state it answers, and that under the invariant it answers one. -/

namespace Sys2Proof.Machine

variable {c : Config} {s : State}

/-! ### Lines -/

theorem CacheLine.wf_iff {l : CacheLine} :
    l.wf c = true ↔ l.data.length = c.blockSize ∧ l.tag < 2 ^ c.tagBits ∧ (l.dirty = true → l.valid = true) := by
  cases hd : l.dirty <;> simp [CacheLine.wf, hd, and_assoc]

theorem CacheLine.wf_reset : (CacheLine.reset c).wf c = true := by
  simp [CacheLine.wf_iff, CacheLine.reset]

theorem lineAt_eq {i : Nat} (h : i < s.lines.length) : lineAt s i = s.lines[i] := by
  simp [lineAt, List.getD_eq_getElem?_getD, h]

theorem lineAt_mem {i : Nat} (h : i < s.lines.length) : lineAt s i ∈ s.lines := by
  rw [lineAt_eq h]; exact List.getElem_mem h

theorem Inv.lineWf (h : Inv s) {i : Nat} (hi : i < s.cfg.numLines) : (lineAt s i).wf s.cfg = true :=
  h.linesWf _ (lineAt_mem (by rw [h.linesCount]; exact hi))

theorem lineAt_setLine_self {i : Nat} (h : i < s.lines.length) (l : CacheLine) : lineAt (setLine s i l) i = l := by
  simp [lineAt, List.getD_eq_getElem?_getD, h]

theorem lineAt_setLine_ne {i j : Nat} (h : i ≠ j) (l : CacheLine) :
    lineAt (setLine s i l) j = lineAt s j := by
  simp [lineAt, List.getD_eq_getElem?_getD, List.getElem?_set_ne h]

@[simp] theorem lineAt_setMem (m : Memory) (i : Nat) : lineAt (setMem s m) i = lineAt s i := rfl

/-! ### Addresses -/

theorem indexOf_lt (h : c.wf = true) (b : Int) : indexOf c b < c.numLines := Nat.mod_lt _ (Config.numLines_pos h)

theorem offsetOf_lt (h : c.wf = true) (b : Int) : offsetOf c b < c.blockSize := Nat.mod_lt _ (Config.blockSize_pos h)

theorem tagOf_lt (h : c.wf = true) {b : Int} (hb : validAddr c b = true) : tagOf c b < 2 ^ c.tagBits :=
  tag_lt h (validAddr_elim h hb).2

/-- The word of an address is word `offset` of the block (tag, index). -/
theorem wordIndex_eq (h : c.wf = true) (b : Int) :
    baseWord c (tagOf c b) (indexOf c b) + offsetOf c b = wordIndex b := recompose_word h _

/-- A word is in the block (tag, index) exactly when its own tag and index are these. -/
theorem mem_block_iff (h : c.wf = true) {t i a : Nat} (hi : i < c.numLines) :
    (baseWord c t i ≤ a ∧ a < baseWord c t i + c.blockSize) ↔
      a / c.blockSize % c.numLines = i ∧ a / (c.blockSize * c.numLines) = t := by
  constructor
  · rintro ⟨h1, h2⟩
    obtain ⟨-, h4, h5⟩ := decompose_blockWord h hi (t := t) (o := a - baseWord c t i) (by omega)
    rw [show baseWord c t i + (a - baseWord c t i) = a by omega] at h4 h5
    exact ⟨h4, h5⟩
  · rintro ⟨rfl, rfl⟩
    have := recompose_word h a
    have := Nat.mod_lt a (Config.blockSize_pos h)
    omega

theorem sub_baseWord (h : c.wf = true) {t i a : Nat} (hi : a / c.blockSize % c.numLines = i)
    (ht : a / (c.blockSize * c.numLines) = t) : a - baseWord c t i = a % c.blockSize := by
  subst hi ht
  have := recompose_word h a
  omega

/-! ### The invariant under the updates -/

theorem Inv.setLine (h : Inv s) {l : CacheLine} (hl : l.wf s.cfg = true) (i : Nat) :
    Inv (Machine.setLine s i l) where
  cfgWf := h.cfgWf
  regsLength := h.regsLength
  pcAligned := h.pcAligned
  linesCount := by simpa using h.linesCount
  linesWf l' hl' := by
    rcases List.mem_or_eq_of_mem_set hl' with h' | rfl
    · exact h.linesWf _ h'
    · exact hl
  memWf := h.memWf
  memInRange := h.memInRange
  errorPc := h.errorPc

theorem Inv.setMem (h : Inv s) {m : Memory} (hm : m.wf = true) (hr : m.inRange s.cfg = true) :
    Inv (Machine.setMem s m) where
  cfgWf := h.cfgWf
  regsLength := h.regsLength
  pcAligned := h.pcAligned
  linesCount := h.linesCount
  linesWf := h.linesWf
  memWf := hm
  memInRange := hr
  errorPc := h.errorPc

/-! ### Write-back, fill, allocate -/

/-- The write-back of a line under the invariant: it succeeds, writes the block of a valid dirty line and nothing
else, and keeps the canonical form. -/
theorem writeBack_spec (h : c.wf = true) {m : Memory} (hm : m.wf = true) (hr : m.inRange c = true) {i : Nat}
    (hi : i < c.numLines) {l : CacheLine} (hl : l.wf c = true) :
    ∃ m', writeBack c m i l = some m' ∧ m'.wf = true ∧ m'.inRange c = true ∧
      ∀ a, m'.read a =
        if (l.valid = true ∧ l.dirty = true) ∧ baseWord c l.tag i ≤ a ∧ a < baseWord c l.tag i + c.blockSize
        then l.data.getD (a - baseWord c l.tag i) 0#32 else m.read a := by
  obtain ⟨hlen, htag, -⟩ := CacheLine.wf_iff.1 hl
  unfold writeBack
  by_cases hd : l.valid = true ∧ l.dirty = true
  · obtain ⟨m', he, hm', hr', hread⟩ := busStoreBlock_spec h l.data m (baseWord c l.tag i) hm hr
      (by rw [hlen]; exact block_le h htag hi)
    refine ⟨m', by simpa [hd, baseByte] using he, hm', hr', fun a => ?_⟩
    rw [hread a, hlen]
    simp [hd]
  · refine ⟨m, ?_, hm, hr, fun a => by simp [hd]⟩
    rw [if_neg]
    simpa using hd

/-- The line a fill leaves: valid, clean, with the MemoryBus words of its block. -/
def filledLine (c : Config) (m : Memory) (i t : Nat) : CacheLine :=
  { valid := true, dirty := false, tag := t, data := (List.range c.blockSize).map fun o => m.read (baseWord c t i + o) }

theorem filledLine_wf (c : Config) (m : Memory) (i : Nat) {t : Nat} (ht : t < 2 ^ c.tagBits) :
    (filledLine c m i t).wf c = true := by
  simp [CacheLine.wf_iff, filledLine, ht]

theorem filledLine_getD {c : Config} (m : Memory) (i t : Nat) {o : Nat} (ho : o < c.blockSize) :
    (filledLine c m i t).data.getD o 0#32 = m.read (baseWord c t i + o) := by
  simp [filledLine, List.getD_eq_getElem?_getD, ho]

/-- `Allocate` under the invariant: the line's write-back, then the fill from the memory it leaves. -/
theorem allocate_eq (h : Inv s) {i t : Nat} {m' : Memory} (hi : i < s.cfg.numLines) (ht : t < 2 ^ s.cfg.tagBits)
    (hw : writeBack s.cfg s.mem i (lineAt s i) = some m') :
    allocate s i t = some (setLine (setMem s m') i (filledLine s.cfg m' i t)) := by
  have hload := busLoadBlock_eq (m := m') h.cfgWf s.cfg.blockSize (baseWord s.cfg t i) (block_le h.cfgWf ht hi)
  simp only [allocate, hw, baseByte, hload]
  rfl

/-- What `ensureLine` can do at a valid address: nothing on a hit, an allocation on a miss; either way the
invariant stays. -/
theorem ensureLine_spec (h : Inv s) {b : Int} (hb : validAddr s.cfg b = true) :
    (hits s b = true ∧ ensureLine s b = some s) ∨
    (hits s b = false ∧ ∃ m', writeBack s.cfg s.mem (indexOf s.cfg b) (lineAt s (indexOf s.cfg b)) = some m' ∧
      m'.wf = true ∧ m'.inRange s.cfg = true ∧
      ensureLine s b =
        some (setLine (setMem s m') (indexOf s.cfg b) (filledLine s.cfg m' (indexOf s.cfg b) (tagOf s.cfg b)))) := by
  cases hh : hits s b
  · obtain ⟨m', he, hm', hr', -⟩ := writeBack_spec h.cfgWf h.memWf h.memInRange (indexOf_lt h.cfgWf b)
      (h.lineWf (indexOf_lt h.cfgWf b))
    exact .inr ⟨rfl, m', he, hm', hr', by
      simp [ensureLine, hh, allocate_eq h (indexOf_lt h.cfgWf b) (tagOf_lt h.cfgWf hb) he]⟩
  · exact .inl ⟨rfl, by simp [ensureLine, hh]⟩

/-- The line of `b` present in a state that meets the invariant and differs in the cache and the MemoryBus only. -/
theorem ensureLine_inv (h : Inv s) {b : Int} (hb : validAddr s.cfg b = true) :
    ∃ m l, ensureLine s b = some (setLine (setMem s m) (indexOf s.cfg b) l) ∧
      Inv (setLine (setMem s m) (indexOf s.cfg b) l) := by
  rcases ensureLine_spec h hb with ⟨-, he⟩ | ⟨-, m', -, hm', hr', he⟩
  · refine ⟨s.mem, lineAt s (indexOf s.cfg b), ?_, (h.setMem h.memWf h.memInRange).setLine
      (h.lineWf (indexOf_lt h.cfgWf b)) _⟩
    rw [he]
    have hi : indexOf s.cfg b < s.lines.length := by rw [h.linesCount]; exact indexOf_lt h.cfgWf b
    rw [lineAt_eq hi]
    simp [setLine, setMem]
  · exact ⟨m', _, he, (h.setMem hm' hr').setLine (filledLine_wf _ _ _ (tagOf_lt h.cfgWf hb)) _⟩

/-- Everything `ensureLine` does at a valid address (R46 to R48): it answers a state that meets the invariant, with
the line of `b` valid, under `b`'s tag and with the words claims name, every other line as before, and the MemoryBus
changed by the write-back alone. -/
theorem ensureLine_effect (h : Inv s) {b : Int} (hb : validAddr s.cfg b = true) :
    ∃ s', ensureLine s b = some s' ∧ Inv s' ∧ (hits s b = true → s' = s) ∧
      (∀ w, s'.mem.read w = memAfterAccess s b w) ∧
      (∀ i, i ≠ indexOf s.cfg b → lineAt s' i = lineAt s i) ∧
      (lineAt s' (indexOf s.cfg b)).valid = true ∧ (lineAt s' (indexOf s.cfg b)).tag = tagOf s.cfg b ∧
      (hits s b = false → (lineAt s' (indexOf s.cfg b)).dirty = false) ∧
      (∀ o, o < s.cfg.blockSize → lineData s' (indexOf s.cfg b) o = lineAfterAccess s b o) := by
  have hi := indexOf_lt h.cfgWf b
  have hlen : indexOf s.cfg b < s.lines.length := by rw [h.linesCount]; exact hi
  rcases ensureLine_spec h hb with ⟨hh, he⟩ | ⟨hh, m', hw, hm', hr', he⟩
  · have hh' := hh
    simp only [hits, Bool.and_eq_true, beq_iff_eq] at hh'
    exact ⟨s, he, h, fun _ => rfl, fun w => by simp [memAfterAccess, hh], fun _ _ => rfl, hh'.1, hh'.2,
      by simp [hh], fun o _ => by simp [lineAfterAccess, hh]⟩
  · obtain ⟨m1, hw1, -, -, hread⟩ := writeBack_spec h.cfgWf h.memWf h.memInRange hi (h.lineWf hi)
    obtain rfl : m1 = m' := by rw [hw] at hw1; exact (Option.some.inj hw1).symm
    have hself : lineAt (setLine (setMem s m1) (indexOf s.cfg b)
        (filledLine s.cfg m1 (indexOf s.cfg b) (tagOf s.cfg b))) (indexOf s.cfg b) =
        filledLine s.cfg m1 (indexOf s.cfg b) (tagOf s.cfg b) := lineAt_setLine_self hlen _
    refine ⟨_, he, (h.setMem hm' hr').setLine (filledLine_wf _ _ _ (tagOf_lt h.cfgWf hb)) _, by simp [hh],
      fun w => ?_, fun i hne => lineAt_setLine_ne (Ne.symm hne) _, by rw [hself]; rfl, by rw [hself]; rfl,
      fun _ => by rw [hself]; rfl, fun o ho => ?_⟩
    · simp only [setLine_mem, setMem_mem, hread w, memAfterAccess, hh, lineData, true_and]
    · rw [lineData, hself, filledLine_getD m1 _ _ ho, hread, if_neg, lineAfterAccess, hh]
      · rfl
      · rintro ⟨⟨hv, -⟩, hblk⟩
        obtain ⟨-, -, ht⟩ := decompose_blockWord h.cfgWf (t := tagOf s.cfg b) hi ho
        have hmiss := (mem_block_iff h.cfgWf hi).1 hblk
        rw [ht] at hmiss
        simp [hits, hv, hmiss.2] at hh

/-! ### Read and write -/

/-- `CacheRead` at a valid address answers the line's word once the line is present. -/
theorem cacheRead_eq {b : Int} (hb : validAddr s.cfg b = true) {s' : State} (he : ensureLine s b = some s') :
    cacheRead s b = some (lineWord s' b, s') := by
  simp [cacheRead, hb, he]

/-- `CacheWrite` at a valid address writes the line's word once the line is present. -/
theorem cacheWrite_eq {b : Int} (hb : validAddr s.cfg b = true) {s' : State} (he : ensureLine s b = some s') (v : Word) :
    cacheWrite s b v =
      some (setLine s' (indexOf s.cfg b) ((lineAt s' (indexOf s.cfg b)).written (offsetOf s.cfg b) v)) := by
  simp [cacheWrite, hb, he]

theorem cacheRead_invalid {b : Int} (hb : validAddr s.cfg b = false) : cacheRead s b = none := by
  simp [cacheRead, hb]

theorem cacheWrite_invalid {b : Int} (hb : validAddr s.cfg b = false) (v : Word) : cacheWrite s b v = none := by
  simp [cacheWrite, hb]

/-- A written line stays well formed where it was valid. -/
theorem CacheLine.written_wf {l : CacheLine} (hl : l.wf c = true) (hv : l.valid = true) (o : Nat) (v : Word) :
    (l.written o v).wf c = true := by
  obtain ⟨h1, h2, -⟩ := CacheLine.wf_iff.1 hl
  simp [CacheLine.wf_iff, CacheLine.written, h1, h2, hv]

/-! ### Flush -/

theorem CacheLine.cleaned_wf {l : CacheLine} (hl : l.wf c = true) : l.cleaned.wf c = true := by
  unfold CacheLine.cleaned
  obtain ⟨h1, h2, -⟩ := CacheLine.wf_iff.1 hl
  split
  · simp [CacheLine.wf_iff, h1, h2]
  · exact hl

@[simp] theorem CacheLine.cleaned_valid (l : CacheLine) : l.cleaned.valid = l.valid := by
  unfold CacheLine.cleaned; split <;> rfl

@[simp] theorem CacheLine.cleaned_tag (l : CacheLine) : l.cleaned.tag = l.tag := by
  unfold CacheLine.cleaned; split <;> rfl

@[simp] theorem CacheLine.cleaned_data (l : CacheLine) : l.cleaned.data = l.data := by
  unfold CacheLine.cleaned; split <;> rfl

/-- The word index `a` after lines `i`, `i+1`, … have been written back: the word of the dirty line that holds its
block, if one does. -/
def flushedWord (c : Config) (i : Nat) (ls : List CacheLine) (m : Memory) (a : Nat) : Word :=
  if i ≤ a / c.blockSize % c.numLines then
    match ls[a / c.blockSize % c.numLines - i]? with
    | some l =>
      if l.valid = true ∧ l.dirty = true ∧ l.tag = a / (c.blockSize * c.numLines) then
        l.data.getD (a % c.blockSize) 0#32
      else m.read a
    | none => m.read a
  else m.read a

/-- The flush loop under the invariant: it succeeds, cleans every line and writes back the dirty ones. -/
theorem flushLines_spec (h : c.wf = true) : ∀ (ls : List CacheLine) (i : Nat) (m : Memory),
    (∀ l ∈ ls, l.wf c = true) → i + ls.length ≤ c.numLines → m.wf = true → m.inRange c = true →
    ∃ m', flushLines c i ls m = some (m', ls.map CacheLine.cleaned) ∧ m'.wf = true ∧ m'.inRange c = true ∧
      ∀ a, m'.read a = flushedWord c i ls m a
  | [], i, m, _, _, hm, hr => ⟨m, rfl, hm, hr, fun a => by simp [flushedWord]⟩
  | l :: ls, i, m, hls, hlen, hm, hr => by
    simp only [List.length_cons] at hlen
    obtain ⟨m1, he1, hm1, hr1, hread1⟩ := writeBack_spec h hm hr (i := i) (by omega) (hls l (by simp))
    obtain ⟨m', he, hm', hr', hread⟩ := flushLines_spec h ls (i + 1) m1 (fun l' hl' => hls l' (by simp [hl']))
      (by omega) hm1 hr1
    refine ⟨m', by simp [flushLines, he1, he], hm', hr', fun a => ?_⟩
    rw [hread a]
    have hrd : m1.read a = if a / c.blockSize % c.numLines = i ∧ l.valid = true ∧ l.dirty = true ∧
        l.tag = a / (c.blockSize * c.numLines) then l.data.getD (a % c.blockSize) 0#32 else m.read a := by
      rw [hread1 a]
      by_cases hc : a / c.blockSize % c.numLines = i ∧ l.valid = true ∧ l.dirty = true ∧
          l.tag = a / (c.blockSize * c.numLines)
      · obtain ⟨h1, h2, h3, h4⟩ := hc
        rw [if_pos ⟨⟨h2, h3⟩, (mem_block_iff h (by omega)).2 ⟨h1, h4.symm⟩⟩, if_pos ⟨h1, h2, h3, h4⟩,
          sub_baseWord h h1 h4.symm]
      · rw [if_neg hc, if_neg]
        rintro ⟨⟨h2, h3⟩, hb⟩
        obtain ⟨h1, h4⟩ := (mem_block_iff h (by omega)).1 hb
        exact hc ⟨h1, h2, h3, h4.symm⟩
    unfold flushedWord
    by_cases hi : a / c.blockSize % c.numLines = i
    · rw [if_neg (by omega), if_pos (by omega), hrd]
      simp [hi]
    · have hrd' : m1.read a = m.read a := by rw [hrd, if_neg fun h' => hi h'.1]
      by_cases hle : i ≤ a / c.blockSize % c.numLines
      · rw [hrd', if_pos (show i + 1 ≤ a / c.blockSize % c.numLines by omega), if_pos hle,
          show a / c.blockSize % c.numLines - i = (a / c.blockSize % c.numLines - (i + 1)) + 1 by omega]
        rfl
      · rw [hrd', if_neg (show ¬ i + 1 ≤ a / c.blockSize % c.numLines by omega), if_neg hle]

/-- The state a flush leaves, given the memory it leaves. -/
def flushedState (s : State) (m : Memory) : State := { s with mem := m, lines := s.lines.map CacheLine.cleaned }

/-- `CacheFlush()` under the invariant: it succeeds and keeps the invariant; every line is cleaned; a MemoryBus
word becomes its line's word where a dirty line holds it, and stays where none does. -/
theorem cacheFlush_spec (h : Inv s) :
    ∃ m', cacheFlush s = some (flushedState s m') ∧ m'.wf = true ∧ m'.inRange s.cfg = true ∧
      ∀ a, m'.read a =
        if hits s (a * 4 : Nat) = true ∧ (lineAt s (indexOf s.cfg (a * 4 : Nat))).dirty = true
        then lineWord s (a * 4 : Nat) else s.mem.read a := by
  obtain ⟨m', he, hm', hr', hread⟩ := flushLines_spec h.cfgWf s.lines 0 s.mem h.linesWf
    (by rw [h.linesCount]; omega) h.memWf h.memInRange
  refine ⟨m', by simp [cacheFlush, he, flushedState], hm', hr', fun a => ?_⟩
  rw [hread a]
  have hi : a / s.cfg.blockSize % s.cfg.numLines < s.lines.length := by
    rw [h.linesCount]; exact Nat.mod_lt _ (Config.numLines_pos h.cfgWf)
  simp only [flushedWord, Nat.zero_le, if_true, Nat.sub_zero, List.getElem?_eq_getElem hi, hits, lineWord, indexOf,
    offsetOf, tagOf, wordIndex_mul_four, lineAt_eq hi, Bool.and_eq_true, beq_iff_eq]
  congr 1
  exact propext ⟨fun ⟨h1, h2, h3⟩ => ⟨⟨h1, h3⟩, h2⟩, fun ⟨⟨h1, h3⟩, h2⟩ => ⟨h1, h2, h3⟩⟩

theorem Inv.flushedState (h : Inv s) {m : Memory} (hm : m.wf = true) (hr : m.inRange s.cfg = true) :
    Inv (Machine.flushedState s m) where
  cfgWf := h.cfgWf
  regsLength := h.regsLength
  pcAligned := h.pcAligned
  linesCount := by simpa [Machine.flushedState] using h.linesCount
  linesWf l hl := by
    simp only [Machine.flushedState, List.mem_map] at hl
    obtain ⟨l', hl', rfl⟩ := hl
    exact CacheLine.cleaned_wf (h.linesWf _ hl')
  memWf := hm
  memInRange := hr
  errorPc := h.errorPc

theorem lineAt_flushedState {i : Nat} (hi : i < s.lines.length) (m : Memory) :
    lineAt (flushedState s m) i = (lineAt s i).cleaned := by
  rw [lineAt_eq hi, lineAt_eq (by simpa [flushedState] using hi)]
  simp [flushedState]

end Sys2Proof.Machine
end

