-- ==== Sys2Proof/Laws/Registers.lean ====
section
/-! SUPPORT. What a register write and a pc advance do, read through the accessors. -/

namespace Sys2Proof.Machine

/-- Reading a register depends on the register file and the configuration only. -/
theorem readReg_congr {s t : State} (hc : t.cfg = s.cfg) (hr : t.regs = s.regs) (j : Nat) :
    readReg t j = readReg s j := by
  simp [readReg, hc, hr]

/-- A write is seen by no other register. -/
theorem readReg_writeReg_ne (s : State) {i j : Nat} (h : i ≠ j) (v : Word) :
    readReg (writeReg s i v) j = readReg s j := by
  unfold readReg
  simp only [writeReg_cfg, writeReg_regs]
  congr 1
  cases discards s.cfg i <;> simp [List.getD_eq_getElem?_getD, List.getElem?_set_ne h]

/-- A write is read back, unless the register discards it (R17 to R19). -/
theorem readReg_writeReg_self (s : State) {i : Nat} (h : i < s.regs.length) (v : Word) :
    readReg (writeReg s i v) i = if discards s.cfg i then 0#32 else v := by
  unfold readReg
  simp only [writeReg_cfg, writeReg_regs]
  by_cases hd : discards s.cfg i = true <;> simp [hd, List.getD_eq_getElem?_getD, h]

theorem discards_iff {c : Config} {i : Nat} : discards c i = true ↔ i = 0 ∧ c.r0Hardwired = true := by
  simp [discards]

/-- The written register, as claims say it. -/
theorem regWritten_writeReg (s : State) {i : Nat} (h : i < s.regs.length) (v : Word) :
    RegWritten (writeReg s i v) i v := by
  simp only [RegWritten, readReg_writeReg_self s h v, writeReg_cfg, ← discards_iff]

@[simp] theorem readReg_setPc (s : State) (t : Word) (j : Nat) : readReg (setPc s t) j = readReg s j := rfl

@[simp] theorem readReg_advancePc (s : State) (j : Nat) : readReg (advancePc s) j = readReg s j := rfl

@[simp] theorem readReg_setLine (s : State) (i : Nat) (l : CacheLine) (j : Nat) :
    readReg (setLine s i l) j = readReg s j := rfl

@[simp] theorem readReg_setMem (s : State) (m : Memory) (j : Nat) : readReg (setMem s m) j = readReg s j := rfl

@[simp] theorem readReg_setEnabled (s : State) (on : Bool) (j : Nat) :
    readReg (setEnabled s on) j = readReg s j := rfl

@[simp] theorem readReg_setHalted (s : State) (j : Nat) : readReg (setHalted s) j = readReg s j := rfl

@[simp] theorem readReg_raiseError (k : ErrorKind) (s : State) (j : Nat) :
    readReg (raiseError k s) j = readReg s j := rfl

/-- The end of an instruction that writes one register: its frame, and the register. -/
theorem keepsAllBut_finishWith (s : State) (rd : Nat) (v : Word) : KeepsAllBut (some rd) s (finishWith s rd v) where
  cfg := rfl
  imem := rfl
  status := rfl
  regs r hr := readReg_writeReg_ne s (fun h => hr (by rw [h])) v

theorem keepsMemory_finishWith (s : State) (rd : Nat) (v : Word) : KeepsMemory s (finishWith s rd v) :=
  ⟨rfl, rfl, fun _ => rfl⟩

theorem regWritten_finishWith (s : State) {rd : Nat} (h : rd < s.regs.length) (v : Word) :
    RegWritten (finishWith s rd v) rd v := regWritten_writeReg s h v

/-- The sequential pc as a sum of words. -/
theorem nextPc_eq (s : State) : nextPc s = s.pc + 4#32 := by
  apply BitVec.eq_of_toNat_eq
  simp only [nextPc, instrBytes, uint, word, BitVec.toNat_ofInt, BitVec.toNat_add, BitVec.toNat_ofNat]
  omega

/-- R24: an aligned pc stays aligned. -/
theorem nextPc_aligned {s : State} (h : uint s.pc % 4 = 0) : uint (nextPc s) % 4 = 0 := by
  simp only [nextPc_eq, uint, BitVec.toNat_add, BitVec.toNat_ofNat] at *
  omega

theorem branchTarget_aligned {s : State} (h : uint s.pc % 4 = 0) (offset : Int) :
    uint (branchTarget s offset) % 4 = 0 := by
  simp only [branchTarget, instrBytes, uint, word, BitVec.toNat_ofInt] at *
  omega

theorem jumpTarget_aligned (target : Nat) : uint (jumpTarget target) % 4 = 0 := by
  simp only [jumpTarget, instrBytes, uint, word, BitVec.toNat_ofInt]
  omega

/-- An error, as claims say it. -/
theorem raised_raiseError (k : ErrorKind) (s : State) : Raised k s (raiseError k s) where
  status := ⟨_, rfl⟩
  pc := rfl
  cfg := rfl
  imem := rfl
  regs _ := rfl
  memory := ⟨rfl, rfl, fun _ => rfl⟩

end Sys2Proof.Machine
end

