-- ==== Sys2Proof/Laws/Exec.lean ====
section
/-! SUPPORT. What the multiplexer, the halting flush, each meaning and one step can do, said once. -/

namespace Sys2Proof.Machine

variable {s t : State}

/-! ### Operations that change the cache and the MemoryBus only -/

/-- `t` is `s` with another cache line array and another MemoryBus. -/
def CacheOnly (s t : State) : Prop := ∃ m ls, t = { s with mem := m, lines := ls }

theorem CacheOnly.refl (s : State) : CacheOnly s s := ⟨s.mem, s.lines, rfl⟩

theorem CacheOnly.fields (h : CacheOnly s t) : t.cfg = s.cfg ∧ t.imem = s.imem ∧ t.regs = s.regs ∧ t.pc = s.pc ∧
    t.status = s.status ∧ t.cacheOn = s.cacheOn ∧ t.freeCount = s.freeCount := by
  obtain ⟨m, ls, rfl⟩ := h
  simp

theorem CacheOnly.readReg (h : CacheOnly s t) (j : Nat) : Machine.readReg t j = Machine.readReg s j :=
  readReg_congr h.fields.1 h.fields.2.2.1 j

theorem allocate_only {i tag : Nat} (h : allocate s i tag = some t) : CacheOnly s t := by
  unfold allocate at h
  split at h
  · simp at h
  split at h
  · simp at h
  · cases h; exact ⟨_, _, rfl⟩

theorem ensureLine_only {b : Int} (h : ensureLine s b = some t) : CacheOnly s t := by
  unfold ensureLine at h
  split at h
  · cases h; exact .refl _
  · exact allocate_only h

theorem cacheRead_only {b : Int} {v : Word} (h : cacheRead s b = some (v, t)) : CacheOnly s t := by
  unfold cacheRead at h
  split at h
  · split at h
    · next he => cases h; exact ensureLine_only he
    · simp at h
  · simp at h

theorem cacheWrite_only {b : Int} {v : Word} (h : cacheWrite s b v = some t) : CacheOnly s t := by
  unfold cacheWrite at h
  split at h
  · split at h
    · next he => obtain ⟨m, ls, rfl⟩ := ensureLine_only he; cases h; exact ⟨_, _, rfl⟩
    · simp at h
  · simp at h

theorem cacheFlush_only (h : cacheFlush s = some t) : CacheOnly s t := by
  unfold cacheFlush at h
  split at h
  · simp at h
  · cases h; exact ⟨_, _, rfl⟩

theorem flushIfOn_only (h : flushIfOn s = some t) : CacheOnly s t := by
  unfold flushIfOn at h
  split at h
  · exact cacheFlush_only h
  · cases h; exact .refl _

theorem memRead_only {b : Int} {v : Word} (h : memRead s b = some (v, t)) : CacheOnly s t := by
  unfold memRead at h
  split at h
  · exact cacheRead_only h
  · split at h
    · cases h; exact .refl _
    · simp at h

theorem memWrite_only {b : Int} {v : Word} (h : memWrite s b v = some t) : CacheOnly s t := by
  unfold memWrite at h
  split at h
  · exact cacheWrite_only h
  · split at h
    · cases h; exact ⟨_, _, rfl⟩
    · simp at h

/-! ### The multiplexer under the invariant -/

/-- An invalid address is refused on either path (R55). -/
theorem memRead_invalid {b : Int} (hb : validAddr s.cfg b = false) : memRead s b = none := by
  simp [memRead, cacheRead_invalid hb, busLoad, hb]

theorem memWrite_invalid {b : Int} (hb : validAddr s.cfg b = false) (v : Word) : memWrite s b v = none := by
  simp [memWrite, cacheWrite_invalid hb, busStore, hb]

/-- With the cache off a valid read answers the MemoryBus word and changes nothing (R55, R40). -/
theorem memRead_off (ho : s.cacheOn = false) {b : Int} (hb : validAddr s.cfg b = true) :
    memRead s b = some (s.mem.read (wordIndex b), s) := by
  simp [memRead, ho, busLoad_of_valid hb]

/-- With the cache off a valid write writes the MemoryBus word and nothing else (R55, R41). -/
theorem memWrite_off (ho : s.cacheOn = false) {b : Int} (hb : validAddr s.cfg b = true) (v : Word) :
    memWrite s b v = some (setMem s (s.mem.write (wordIndex b) v)) := by
  simp [memWrite, ho, busStore_of_valid hb]

theorem memRead_on (ho : s.cacheOn = true) (b : Int) : memRead s b = cacheRead s b := by simp [memRead, ho]

theorem memWrite_on (ho : s.cacheOn = true) (b : Int) (v : Word) : memWrite s b v = cacheWrite s b v := by
  simp [memWrite, ho]

/-- A valid read answers a word and keeps the invariant, whatever the mode. -/
theorem memRead_inv (h : Inv s) {b : Int} (hb : validAddr s.cfg b = true) :
    ∃ v t, memRead s b = some (v, t) ∧ Inv t := by
  cases ho : s.cacheOn
  · exact ⟨_, _, memRead_off ho hb, h⟩
  · obtain ⟨m, l, he, hi⟩ := ensureLine_inv h hb
    exact ⟨_, _, (memRead_on ho b).trans (cacheRead_eq hb he), hi⟩

/-- The line of `b`, once present, is valid. -/
theorem ensureLine_valid (h : Inv s) {b : Int} (hb : validAddr s.cfg b = true) {s' : State}
    (he : ensureLine s b = some s') : (lineAt s' (indexOf s.cfg b)).valid = true := by
  rcases ensureLine_spec h hb with ⟨hh, he'⟩ | ⟨-, m', -, -, -, he'⟩
  · rw [he] at he'; cases he'
    simp only [hits, Bool.and_eq_true] at hh
    exact hh.1
  · rw [he] at he'; cases he'
    rw [lineAt_setLine_self (by simpa [h.linesCount] using indexOf_lt h.cfgWf b)]
    rfl

/-- A valid write is carried out and keeps the invariant, whatever the mode. -/
theorem memWrite_inv (h : Inv s) {b : Int} (hb : validAddr s.cfg b = true) (v : Word) :
    ∃ t, memWrite s b v = some t ∧ Inv t := by
  cases ho : s.cacheOn
  · obtain ⟨-, hlt⟩ := validAddr_elim h.cfgWf hb
    exact ⟨_, memWrite_off ho hb v, h.setMem (Memory.wf_write h.memWf _ _) (Memory.inRange_write h.memInRange hlt _)⟩
  · obtain ⟨m, l, he, hi⟩ := ensureLine_inv h hb
    refine ⟨_, (memWrite_on ho b v).trans (cacheWrite_eq hb he v), ?_⟩
    exact hi.setLine (CacheLine.written_wf (hi.lineWf (indexOf_lt h.cfgWf b)) (ensureLine_valid h hb he) _ _) _

/-- The halting flush is carried out and keeps the invariant. -/
theorem flushIfOn_inv (h : Inv s) : ∃ t, flushIfOn s = some t ∧ Inv t := by
  cases ho : s.cacheOn
  · exact ⟨s, by simp [flushIfOn, ho], h⟩
  · obtain ⟨m', he, hm, hr, -⟩ := cacheFlush_spec h
    exact ⟨_, by simp [flushIfOn, ho, he], h.flushedState hm hr⟩

/-! ### Updates of registers, pc and status under the invariant -/

theorem Inv.writeReg (h : Inv s) (i : Nat) (v : Word) : Inv (Machine.writeReg s i v) where
  cfgWf := h.cfgWf
  regsLength := by
    have := h.regsLength
    simp only [writeReg_regs, writeReg_cfg]
    split <;> simp [this]
  pcAligned := h.pcAligned
  linesCount := h.linesCount
  linesWf := h.linesWf
  memWf := h.memWf
  memInRange := h.memInRange
  errorPc := h.errorPc

theorem Inv.setEnabled (h : Inv s) (on : Bool) : Inv (Machine.setEnabled s on) where
  cfgWf := h.cfgWf
  regsLength := h.regsLength
  pcAligned := h.pcAligned
  linesCount := h.linesCount
  linesWf := h.linesWf
  memWf := h.memWf
  memInRange := h.memInRange
  errorPc := h.errorPc

/-- A pc is set only where no error record names the old one. -/
theorem Inv.setPc (h : Inv s) (hs : ∀ r, s.status ≠ .error r) {p : Word} (hp : uint p % 4 = 0) :
    Inv (Machine.setPc s p) where
  cfgWf := h.cfgWf
  regsLength := h.regsLength
  pcAligned := hp
  linesCount := h.linesCount
  linesWf := h.linesWf
  memWf := h.memWf
  memInRange := h.memInRange
  errorPc r hr := absurd hr (hs r)

theorem Inv.advancePc (h : Inv s) (hs : ∀ r, s.status ≠ .error r) : Inv (Machine.advancePc s) :=
  h.setPc hs (nextPc_aligned h.pcAligned)

theorem Inv.setHalted (h : Inv s) : Inv (Machine.setHalted s) where
  cfgWf := h.cfgWf
  regsLength := h.regsLength
  pcAligned := h.pcAligned
  linesCount := h.linesCount
  linesWf := h.linesWf
  memWf := h.memWf
  memInRange := h.memInRange
  errorPc r hr := by simp at hr

theorem Inv.raiseError (h : Inv s) (k : ErrorKind) : Inv (Machine.raiseError k s) where
  cfgWf := h.cfgWf
  regsLength := h.regsLength
  pcAligned := h.pcAligned
  linesCount := h.linesCount
  linesWf := h.linesWf
  memWf := h.memWf
  memInRange := h.memInRange
  errorPc r hr := by
    simp only [raiseError_status, Status.error.injEq] at hr
    rw [← hr]; rfl

theorem Inv.finishWith (h : Inv s) (hs : ∀ r, s.status ≠ .error r) (rd : Nat) (v : Word) :
    Inv (Machine.finishWith s rd v) := (h.writeReg rd v).advancePc hs

/-! ### One step -/

/-- What a step from a running state can do: fetch out of range, halt at the end, raise a decode-stage error, or
execute the decoded instruction (R81). -/
theorem step_running_cases (hr : s.status = .running) (hc : s.cfg.wf = true) :
    (fetch s = .outOfRange ∧ step s = .next (raiseError .executionError s)) ∨
    (fetch s = .implicitHalt ∧ step s = commit s ((flushIfOn s).map setHalted)) ∨
    (∃ e, fetch s = .entry e ∧ decodeEntry s.cfg e = .unknown ∧ step s = .next (raiseError .executionError s)) ∨
    (∃ e o, fetch s = .entry e ∧ decodeEntry s.cfg e = .malformed o ∧ step s = .next (raiseError .decodeError s)) ∨
    (∃ e i, fetch s = .entry e ∧ decodeEntry s.cfg e = .instr i ∧ step s = exec i s) := by
  have hstep : step s = stepRunning s := by simp [step, hr, hc]
  rw [hstep]
  unfold stepRunning
  split
  · next e he =>
    cases hd : decodeEntry s.cfg e with
    | unknown => exact .inr (.inr (.inl ⟨e, he, hd, by simp [runEntry, hd]⟩))
    | malformed o => exact .inr (.inr (.inr (.inl ⟨e, o, he, hd, by simp [runEntry, hd]⟩)))
    | instr i => exact .inr (.inr (.inr (.inr ⟨e, i, he, hd, by simp [runEntry, hd]⟩)))
  · next he => exact .inr (.inl ⟨he, rfl⟩)
  · next he => exact .inl ⟨he, rfl⟩

/-- A step that answers a next state began in a running state of a well-formed configuration. -/
theorem step_next_running (h : step s = .next t) : s.status = .running ∧ s.cfg.wf = true := by
  unfold step at h
  split at h
  · simp at h
  · simp at h
  · next hr =>
    split at h
    · next hc => exact ⟨hr, hc⟩
    · simp at h

/-- Committing answers the state the accesses left, or an AddressError from the state the step began in. -/
theorem commit_cases {r : Option State} (h : commit s r = .next t) :
    r = some t ∨ (r = none ∧ t = raiseError .addressError s) := by
  cases r with
  | none => right; simpa [commit, eq_comm] using h
  | some t' => left; simpa [commit] using h

/-- Every meaning answers a next state. -/
theorem exec_next (i : Instr) (s : State) : ∃ t, exec i s = .next t := by
  have hc : ∀ r : Option State, ∃ t, commit s r = .next t := fun r => by cases r <;> exact ⟨_, rfl⟩
  cases i
  case cache code =>
    simp only [exec, execCache]
    split
    · exact ⟨_, rfl⟩
    split
    · exact ⟨_, rfl⟩
    split
    · exact hc _
    · exact ⟨_, rfl⟩
  case lw => exact hc _
  case sw => exact hc _
  case halt => exact hc _
  all_goals exact ⟨_, rfl⟩

/-! ### Fetch -/

/-- A fetch finds an entry exactly where the instruction store holds one at `uint(pc) / 4`. -/
theorem fetch_entry_iff {e : Entry} : fetch s = .entry e ↔ s.imem[uint s.pc / 4]? = some e := by
  change _ ↔ s.imem[fetchIndex s]? = some e
  unfold fetch
  cases s.imem[fetchIndex s]? with
  | some e' => simp
  | none => simp only [reduceCtorEq, iff_false]; split <;> simp

/-- An implicit halt is found only with IMPLICIT_HALT and the pc exactly at the end (R81). -/
theorem fetch_implicitHalt (h : fetch s = .implicitHalt) :
    s.cfg.implicitHalt = true ∧ uint s.pc = 4 * s.imem.length := by
  unfold fetch at h
  split at h
  · simp at h
  · split at h
    · next hh => simpa [instrBytes] using hh
    · simp at h

/-- Past the end of the program nothing is fetched: an implicit halt or an index out of range. -/
theorem fetch_past_end (hl : 4 * s.imem.length ≤ uint s.pc) :
    fetch s = if s.cfg.implicitHalt = true ∧ uint s.pc = 4 * s.imem.length then .implicitHalt else .outOfRange := by
  have hn : s.imem[fetchIndex s]? = none := by
    rw [List.getElem?_eq_none_iff]; unfold fetchIndex instrBytes; omega
  simp [fetch, hn, instrBytes]

/-- The current instruction is the decoded entry of the fetch. -/
theorem currentInstr_iff {i : Instr} :
    currentInstr s = some i ↔ ∃ e, fetch s = .entry e ∧ decodeEntry s.cfg e = .instr i := by
  unfold currentInstr
  cases fetch s with
  | entry e =>
    simp only [Fetched.entry.injEq, exists_eq_left']
    cases decodeEntry s.cfg e <;> simp
  | implicitHalt => simp
  | outOfRange => simp

/-! ### What a meaning and a step can answer -/

/-- Every next state a meaning can answer: an error and nothing else; a new pc over a change of the cache and the
MemoryBus; besides these one register, its destination; the cache mode and the pc; or HALTED after the halting flush. -/
inductive ExecShape (i : Instr) (s : State) : State → Prop where
  | raised (k : ErrorKind) : ExecShape i s (raiseError k s)
  | moved (u : State) (p : Word) : CacheOnly s u → destination i = none → ExecShape i s (setPc u p)
  | wrote (u : State) (r : Nat) (v p : Word) : CacheOnly s u → destination i = some r →
      ExecShape i s (setPc (writeReg u r v) p)
  | switched (on : Bool) : i = .cache (if on then 1 else 0) → ExecShape i s (advancePc (setEnabled s on))
  | halted (u : State) : flushIfOn s = some u → i = .halt → ExecShape i s (haltedState u)

theorem exec_shape {i : Instr} (h : exec i s = .next t) : ExecShape i s t := by
  cases i with
  | add rd rs rt => cases h; exact .wrote s rd _ _ (.refl s) rfl
  | addi rt rs immd => cases h; exact .wrote s rt _ _ (.refl s) rfl
  | sub rd rs rt => cases h; exact .wrote s rd _ _ (.refl s) rfl
  | subi rd rs immd => cases h; exact .wrote s rd _ _ (.refl s) rfl
  | slt rd rs rt => cases h; exact .wrote s rd _ _ (.refl s) rfl
  | bne rs rt offset =>
    cases h
    split
    · exact .moved s _ (.refl s) rfl
    · exact .moved s _ (.refl s) rfl
  | j target => cases h; exact .moved s _ (.refl s) rfl
  | jal target => cases h; exact .wrote s linkReg _ _ (.refl s) rfl
  | lw rt offset rs =>
    rcases commit_cases h with hk | ⟨-, rfl⟩
    · simp only [Option.map_eq_some_iff, Prod.exists] at hk
      obtain ⟨v, u, hu, rfl⟩ := hk
      exact .wrote u rt v _ (memRead_only hu) rfl
    · exact .raised _
  | sw rt offset rs =>
    rcases commit_cases h with hk | ⟨-, rfl⟩
    · simp only [Option.map_eq_some_iff] at hk
      obtain ⟨u, hu, rfl⟩ := hk
      exact .moved u _ (memWrite_only hu) rfl
    · exact .raised _
  | cache code =>
    simp only [exec, execCache] at h
    split at h
    · next hk => subst hk; cases h; exact .switched false rfl
    split at h
    · next hk => subst hk; cases h; exact .switched true rfl
    split at h
    · rcases commit_cases h with hk | ⟨-, rfl⟩
      · simp only [Option.map_eq_some_iff] at hk
        obtain ⟨u, hu, rfl⟩ := hk
        exact .moved u _ (cacheFlush_only hu) rfl
      · exact .raised _
    · cases h; exact .raised _
  | nop => cases h; exact .moved s _ (.refl s) rfl
  | halt =>
    rcases commit_cases h with hk | ⟨-, rfl⟩
    · simp only [Option.map_eq_some_iff] at hk
      obtain ⟨u, hu, rfl⟩ := hk
      exact .halted u hu rfl
    · exact .raised _

/-- Every next state a step can answer: an error, an implicit halt, or what the current instruction answers. -/
theorem step_shape (h : step s = .next t) :
    (∃ k, t = raiseError k s) ∨
    (∃ u, flushIfOn s = some u ∧ t = setHalted u ∧ fetch s = .implicitHalt) ∨
    (∃ i, currentInstr s = some i ∧ exec i s = .next t) := by
  obtain ⟨hr, hc⟩ := step_next_running h
  rcases step_running_cases hr hc with ⟨-, h1⟩ | ⟨hf, h1⟩ | ⟨e, -, -, h1⟩ | ⟨e, o, -, -, h1⟩ | ⟨e, i, h2, h3, h1⟩ <;>
    rw [h1] at h
  · cases h; exact .inl ⟨_, rfl⟩
  · rcases commit_cases h with hk | ⟨-, rfl⟩
    · simp only [Option.map_eq_some_iff] at hk
      obtain ⟨u, hu, rfl⟩ := hk
      exact .inr (.inl ⟨u, hu, rfl, hf⟩)
    · exact .inl ⟨_, rfl⟩
  · cases h; exact .inl ⟨_, rfl⟩
  · cases h; exact .inl ⟨_, rfl⟩
  · exact .inr (.inr ⟨i, currentInstr_iff.2 ⟨e, h2, h3⟩, h⟩)

/-- The halted state differs from the flushed one in status and pc only. -/
theorem haltedState_fields (u : State) : (haltedState u).status = .halted ∧ (haltedState u).cfg = u.cfg ∧
    (haltedState u).imem = u.imem ∧ (haltedState u).cacheOn = u.cacheOn ∧ (haltedState u).lines = u.lines ∧
    (haltedState u).mem = u.mem ∧ (haltedState u).regs = u.regs ∧ (haltedState u).freeCount = u.freeCount := by
  unfold haltedState; split <;> simp

end Sys2Proof.Machine
end

