-- ==== Sys2Proof/Laws/Coherence.lean ====
section
/-! SUPPORT. How the operations of the cache move the memory a program sees (`visibleWord`), and that they keep clean
lines equal to the MemoryBus. -/

namespace Sys2Proof.Machine

variable {s t : State}

/-! ### The visible word, by line and offset -/

/-- The line of word index `w`. -/
def wordLine (c : Config) (w : Nat) : Nat := w / c.blockSize % c.numLines

/-- The tag of word index `w`. -/
def wordTag (c : Config) (w : Nat) : Nat := w / (c.blockSize * c.numLines)

theorem wordLine_lt {c : Config} (h : c.wf = true) (w : Nat) : wordLine c w < c.numLines :=
  Nat.mod_lt _ (Config.numLines_pos h)

theorem wordOffset_lt {c : Config} (h : c.wf = true) (w : Nat) : w % c.blockSize < c.blockSize :=
  Nat.mod_lt _ (Config.blockSize_pos h)

theorem baseWord_word {c : Config} (h : c.wf = true) (w : Nat) :
    baseWord c (wordTag c w) (wordLine c w) + w % c.blockSize = w := recompose_word h w

theorem indexOf_word (c : Config) (w : Nat) : indexOf c (w * 4 : Nat) = wordLine c w := by
  simp only [indexOf, wordIndex_mul_four, wordLine]

theorem tagOf_word (c : Config) (w : Nat) : tagOf c (w * 4 : Nat) = wordTag c w := by
  simp only [tagOf, wordIndex_mul_four, wordTag]

theorem offsetOf_word (c : Config) (w : Nat) : offsetOf c (w * 4 : Nat) = w % c.blockSize := by
  simp only [offsetOf, wordIndex_mul_four]

theorem hits_word (s : State) (w : Nat) : hits s (w * 4 : Nat) = true ↔
    (lineAt s (wordLine s.cfg w)).valid = true ∧ (lineAt s (wordLine s.cfg w)).tag = wordTag s.cfg w := by
  simp only [hits, indexOf_word, tagOf_word, Bool.and_eq_true, beq_iff_eq]

theorem lineWord_word (s : State) (w : Nat) :
    lineWord s (w * 4 : Nat) = lineData s (wordLine s.cfg w) (w % s.cfg.blockSize) := by
  simp only [lineWord, indexOf_word, offsetOf_word, lineData]

theorem visibleWord_hit {w : Nat} (hv : (lineAt s (wordLine s.cfg w)).valid = true)
    (ht : (lineAt s (wordLine s.cfg w)).tag = wordTag s.cfg w) :
    visibleWord s w = lineData s (wordLine s.cfg w) (w % s.cfg.blockSize) := by
  rw [visibleWord, if_pos ((hits_word s w).2 ⟨hv, ht⟩), lineWord_word]

theorem visibleWord_miss {w : Nat} (h : ¬ ((lineAt s (wordLine s.cfg w)).valid = true ∧
    (lineAt s (wordLine s.cfg w)).tag = wordTag s.cfg w)) : visibleWord s w = s.mem.read w := by
  rw [visibleWord, if_neg fun hh => h ((hits_word s w).1 hh)]

/-- What a word sees depends on its line, the MemoryBus word and the configuration only. -/
theorem visibleWord_congr {w : Nat} (hc : t.cfg = s.cfg)
    (hl : lineAt t (wordLine s.cfg w) = lineAt s (wordLine s.cfg w)) (hm : t.mem.read w = s.mem.read w) :
    visibleWord t w = visibleWord s w := by
  by_cases h : (lineAt s (wordLine s.cfg w)).valid = true ∧ (lineAt s (wordLine s.cfg w)).tag = wordTag s.cfg w
  · rw [visibleWord_hit h.1 h.2, visibleWord_hit (by rw [hc, hl]; exact h.1) (by rw [hc, hl]; exact h.2)]
    simp only [lineData, hc, hl]
  · rw [visibleWord_miss h, visibleWord_miss (by rwa [hc, hl]), hm]

/-! ### The memory an access through the cache leaves -/

/-- Away from the block of a missing dirty line the MemoryBus is as before. -/
theorem memAfterAccess_other (hc : s.cfg.wf = true) {b : Int} {w : Nat}
    (h : ¬ ((lineAt s (indexOf s.cfg b)).valid = true ∧ (lineAt s (indexOf s.cfg b)).dirty = true ∧
      wordLine s.cfg w = indexOf s.cfg b ∧ wordTag s.cfg w = (lineAt s (indexOf s.cfg b)).tag)) :
    memAfterAccess s b w = s.mem.read w := by
  rw [memAfterAccess, if_neg]
  rintro ⟨-, ⟨hv, hd⟩, hblk⟩
  obtain ⟨h1, h2⟩ := (mem_block_iff hc (indexOf_lt hc b)).1 hblk
  exact h ⟨hv, hd, h1, h2⟩

/-- In the block of a missing dirty line the MemoryBus has the line's words. -/
theorem memAfterAccess_evicted (hc : s.cfg.wf = true) {b : Int} {w : Nat} (hh : hits s b = false)
    (hv : (lineAt s (indexOf s.cfg b)).valid = true) (hd : (lineAt s (indexOf s.cfg b)).dirty = true)
    (hi : wordLine s.cfg w = indexOf s.cfg b) (ht : wordTag s.cfg w = (lineAt s (indexOf s.cfg b)).tag) :
    memAfterAccess s b w = lineData s (indexOf s.cfg b) (w % s.cfg.blockSize) := by
  have hblk := (mem_block_iff hc (a := w) (indexOf_lt hc b)).2 ⟨hi, ht⟩
  rw [memAfterAccess, if_pos ⟨hh, ⟨hv, hd⟩, hblk⟩, sub_baseWord hc hi ht]

/-- Making a line present changes nothing a program sees (R46). -/
theorem visibleWord_ensureLine (h : Inv s) (hcl : CleanLinesMatch s) {b : Int} (hb : validAddr s.cfg b = true)
    (he : ensureLine s b = some t) (w : Nat) : visibleWord t w = visibleWord s w := by
  obtain ⟨t', he', -, e1, e2, e3, e4, e5, e6, e7⟩ := ensureLine_effect h hb
  obtain rfl : t' = t := by rw [he] at he'; exact (Option.some.inj he').symm
  have hc : t'.cfg = s.cfg := (ensureLine_only he).fields.1
  have hwf := h.cfgWf
  cases hh : hits s b
  case true => rw [e1 hh]
  have hmiss : ¬ ((lineAt s (indexOf s.cfg b)).valid = true ∧ (lineAt s (indexOf s.cfg b)).tag = tagOf s.cfg b) := by
    intro hv
    simp [hits, hv.1, hv.2] at hh
  by_cases hi : wordLine s.cfg w = indexOf s.cfg b
  swap
  · exact visibleWord_congr hc (e3 _ hi) ((e2 w).trans (memAfterAccess_other hwf fun hx => hi hx.2.2.1))
  by_cases ht : wordTag s.cfg w = tagOf s.cfg b
  · rw [visibleWord_miss (s := s) (by rw [hi, ht]; exact hmiss),
      visibleWord_hit (s := t') (by rw [hc, hi]; exact e4) (by rw [hc, hi, ht]; exact e5)]
    rw [hc, hi, e7 _ (wordOffset_lt hwf w), lineAfterAccess, hh, ← hi, ← ht, baseWord_word hwf]
    rfl
  · rw [visibleWord_miss (s := t') (by rw [hc, hi, e5]; exact fun hx => ht hx.2.symm), e2]
    by_cases hs : (lineAt s (indexOf s.cfg b)).valid = true ∧ (lineAt s (indexOf s.cfg b)).tag = wordTag s.cfg w
    · rw [visibleWord_hit (s := s) (by rw [hi]; exact hs.1) (by rw [hi]; exact hs.2), hi]
      cases hd : (lineAt s (indexOf s.cfg b)).dirty
      · rw [memAfterAccess_other hwf (by simp [hd]), hcl _ _ (indexOf_lt hwf b) (wordOffset_lt hwf w) hs.1 hd, hs.2,
          ← hi, baseWord_word hwf]
      · exact memAfterAccess_evicted hwf hh hs.1 hd hi hs.2.symm
    · rw [visibleWord_miss (s := s) (by rw [hi]; exact hs),
        memAfterAccess_other hwf fun hx => hs ⟨hx.1, hx.2.2.2.symm⟩]

/-- Making a line present keeps clean lines equal to the MemoryBus. -/
theorem cleanLinesMatch_ensureLine (h : Inv s) (hcl : CleanLinesMatch s) {b : Int} (hb : validAddr s.cfg b = true)
    (he : ensureLine s b = some t) : CleanLinesMatch t := by
  obtain ⟨t', he', -, e1, e2, e3, e4, e5, e6, e7⟩ := ensureLine_effect h hb
  obtain rfl : t' = t := by rw [he] at he'; exact (Option.some.inj he').symm
  have hc : t'.cfg = s.cfg := (ensureLine_only he).fields.1
  have hwf := h.cfgWf
  cases hh : hits s b
  case true => rw [e1 hh]; exact hcl
  intro i o hi ho hv hd
  rw [hc] at hi ho ⊢
  obtain ⟨-, d2, d3⟩ := decompose_blockWord hwf (t := (lineAt t' i).tag) hi ho
  rw [e2]
  by_cases hii : i = indexOf s.cfg b
  · subst hii
    rw [e7 o ho, lineAfterAccess, hh, e5, memAfterAccess_other hwf]
    · rfl
    · rintro ⟨hv', -, -, ht'⟩
      rw [e5] at d3
      change wordTag s.cfg _ = _ at d3
      rw [d3] at ht'
      simp [hits, hv', ht'] at hh
  · have hl := e3 i hii
    rw [lineData, hl]
    rw [hl] at hv hd d2
    rw [memAfterAccess_other hwf (fun hx => hii (d2.symm.trans hx.2.2.1))]
    exact hcl i o hi ho hv hd

/-! ### A write into a present line, and a flush -/

/-- Writing a word of the line that holds it changes what a program sees at that word and nowhere else (R48). -/
theorem visibleWord_written (h : Inv s) {b : Int} (hb : validAddr s.cfg b = true) (hh : hits s b = true) (v : Word)
    (w : Nat) :
    visibleWord (setLine s (indexOf s.cfg b) ((lineAt s (indexOf s.cfg b)).written (offsetOf s.cfg b) v)) w =
      if w = wordIndex b then v else visibleWord s w := by
  have hwf := h.cfgWf
  have hidx : indexOf s.cfg b < s.lines.length := by rw [h.linesCount]; exact indexOf_lt hwf b
  have hself := lineAt_setLine_self (s := s) hidx ((lineAt s (indexOf s.cfg b)).written (offsetOf s.cfg b) v)
  have hlen := (CacheLine.wf_iff.1 (h.lineWf (indexOf_lt hwf b))).1
  obtain ⟨hb4, -⟩ := validAddr_elim hwf hb
  have hh' : (lineAt s (indexOf s.cfg b)).valid = true ∧ (lineAt s (indexOf s.cfg b)).tag = tagOf s.cfg b := by
    simpa [hits] using hh
  by_cases hi : wordLine s.cfg w = indexOf s.cfg b
  swap
  · have := visibleWord_congr (s := s) (w := w)
      (t := setLine s (indexOf s.cfg b) ((lineAt s (indexOf s.cfg b)).written (offsetOf s.cfg b) v)) rfl
      (lineAt_setLine_ne (Ne.symm hi) _) rfl
    rw [this, if_neg]
    rintro rfl
    exact hi rfl
  by_cases ht : wordTag s.cfg w = tagOf s.cfg b
  · rw [visibleWord_hit (by simp only [setLine_cfg, hi, hself]; exact hh'.1)
      (by simp only [setLine_cfg, hi, hself]; exact hh'.2.trans ht.symm)]
    rw [visibleWord_hit (s := s) (by rw [hi]; exact hh'.1) (by rw [hi]; exact hh'.2.trans ht.symm)]
    simp only [setLine_cfg, hi, lineData]
    rw [hself]
    simp only [CacheLine.written, List.getD_eq_getElem?_getD, List.getElem?_set, hlen]
    have hoff : offsetOf s.cfg b = w % s.cfg.blockSize ↔ w = wordIndex b := by
      constructor
      · intro ho
        rw [← baseWord_word hwf w, hi, ht, ← ho, wordIndex_eq hwf]
      · rintro rfl; rfl
    by_cases ho : w = wordIndex b
    · rw [if_pos ho, if_pos (hoff.2 ho)]
      simp [hoff.2 ho, wordOffset_lt hwf w]
    · rw [if_neg ho, if_neg fun hx => ho (hoff.1 hx)]
  · rw [visibleWord_miss (by simp only [setLine_cfg, hi, hself]; exact fun hx => ht (hx.2.symm.trans hh'.2)), if_neg]
    · rw [visibleWord_miss (s := s) (by rw [hi]; exact fun hx => ht (hx.2.symm.trans hh'.2))]
      rfl
    · rintro rfl
      exact ht rfl

/-- A dirty write keeps clean lines equal to the MemoryBus. -/
theorem cleanLinesMatch_written (h : Inv s) (hcl : CleanLinesMatch s) (b : Int) (o : Nat) (v : Word) :
    CleanLinesMatch (setLine s (indexOf s.cfg b) ((lineAt s (indexOf s.cfg b)).written o v)) := by
  intro i o' hi ho' hv hd
  by_cases hii : i = indexOf s.cfg b
  · subst hii
    rw [lineAt_setLine_self (by rw [h.linesCount]; exact hi)] at hd
    simp [CacheLine.written] at hd
  · rw [lineAt_setLine_ne (Ne.symm hii)] at hv hd
    simp only [lineData, lineAt_setLine_ne (Ne.symm hii)]
    exact hcl i o' hi ho' hv hd

/-- A flush makes the MemoryBus hold what a program saw, changes nothing a program sees, and keeps clean lines equal
to the MemoryBus (R50, R53). -/
theorem cacheFlush_visible (h : Inv s) (hcl : CleanLinesMatch s) :
    ∃ m', cacheFlush s = some (flushedState s m') ∧ (∀ w, m'.read w = visibleWord s w) ∧
      (∀ w, visibleWord (flushedState s m') w = visibleWord s w) ∧ CleanLinesMatch (flushedState s m') := by
  have hwf := h.cfgWf
  obtain ⟨m', he, -, -, hread⟩ := cacheFlush_spec h
  have hmem : ∀ w, m'.read w = visibleWord s w := fun w => by
    rw [hread w, visibleWord]
    cases hh : hits s (w * 4 : Nat)
    · simp
    cases hd : (lineAt s (indexOf s.cfg (w * 4 : Nat))).dirty
    · obtain ⟨hv, ht⟩ := (hits_word s w).1 hh
      rw [indexOf_word] at hd
      have := hcl _ _ (wordLine_lt hwf w) (wordOffset_lt hwf w) hv hd
      rw [ht, baseWord_word hwf] at this
      simp only [Bool.false_eq_true, and_false, if_false, if_true]
      rw [lineWord_word, this]
    · simp
  have hline : ∀ w, lineAt (flushedState s m') (wordLine s.cfg w) = (lineAt s (wordLine s.cfg w)).cleaned := fun w =>
    lineAt_flushedState (by rw [h.linesCount]; exact wordLine_lt hwf w) m'
  refine ⟨m', he, hmem, fun w => ?_, fun i o hi ho hv _ => ?_⟩
  · by_cases hx : (lineAt s (wordLine s.cfg w)).valid = true ∧ (lineAt s (wordLine s.cfg w)).tag = wordTag s.cfg w
    · rw [visibleWord_hit hx.1 hx.2]
      have hl := hline w
      rw [visibleWord_hit (s := flushedState s m')
        (by change (lineAt _ (wordLine s.cfg w)).valid = _; rw [hl, CacheLine.cleaned_valid]; exact hx.1)
        (by change (lineAt _ (wordLine s.cfg w)).tag = wordTag s.cfg w; rw [hl, CacheLine.cleaned_tag]; exact hx.2)]
      change (lineAt _ (wordLine s.cfg w)).data.getD _ _ = _
      rw [hl, CacheLine.cleaned_data]
      rfl
    · have hl := hline w
      rw [visibleWord_miss (s := flushedState s m') (by
        change ¬ ((lineAt _ (wordLine s.cfg w)).valid = _ ∧ (lineAt _ (wordLine s.cfg w)).tag = wordTag s.cfg w)
        rw [hl, CacheLine.cleaned_valid, CacheLine.cleaned_tag]; exact hx)]
      exact hmem w
  · change i < s.cfg.numLines at hi
    change o < s.cfg.blockSize at ho
    have hl : lineAt (flushedState s m') i = (lineAt s i).cleaned := lineAt_flushedState (by rw [h.linesCount]; exact hi) m'
    change (lineAt (flushedState s m') i).data.getD o 0#32 = m'.read (baseWord s.cfg (lineAt (flushedState s m') i).tag i + o)
    rw [hl] at hv ⊢
    rw [CacheLine.cleaned_valid] at hv
    rw [CacheLine.cleaned_data, CacheLine.cleaned_tag, hmem]
    obtain ⟨d1, d2, d3⟩ := decompose_blockWord hwf (t := (lineAt s i).tag) hi ho
    have e1 : wordLine s.cfg (baseWord s.cfg (lineAt s i).tag i + o) = i := d2
    have e2 : wordTag s.cfg (baseWord s.cfg (lineAt s i).tag i + o) = (lineAt s i).tag := d3
    rw [visibleWord_hit (by rw [e1]; exact hv) (by rw [e1, e2]), e1, d1]
    rfl

end Sys2Proof.Machine
end

