-- ==== Sys2Proof/Laws/Decode.lean ====
section
/-! SUPPORT. The fields of an encoded word, the immediate's round trip, the rows of R76 apart, and the three word
formats of R73 to R75 as sums. -/

namespace Sys2Proof

/-! ### Fields of the formats -/

/-- The fields of an R-format word (R73). -/
theorem rFormat_fields {rs rt rd funct : Nat} (hs : rs < 32) (ht : rt < 32) (hd : rd < 32) (hf : funct < 64) :
    opField (rFormat rs rt rd funct) = 0 ∧ rsField (rFormat rs rt rd funct) = rs ∧
    rtField (rFormat rs rt rd funct) = rt ∧ rdField (rFormat rs rt rd funct) = rd ∧
    bits 10 6 (rFormat rs rt rd funct) = 0 ∧ functField (rFormat rs rt rd funct) = funct := by
  simp only [opField, rsField, rtField, rdField, functField, bits, rFormat, BitVec.toNat_ofNat]
  omega

/-- The fields of an I-format word (R74). -/
theorem iFormat_fields {op rs rt imm : Nat} (ho : op < 64) (hs : rs < 32) (ht : rt < 32) (hi : imm < 65536) :
    opField (iFormat op rs rt imm) = op ∧ rsField (iFormat op rs rt imm) = rs ∧
    rtField (iFormat op rs rt imm) = rt ∧ immField (iFormat op rs rt imm) = imm := by
  simp only [opField, rsField, rtField, immField, bits, iFormat, BitVec.toNat_ofNat]
  omega

/-- The fields of a J-format word (R75). -/
theorem jFormat_fields {op target : Nat} (ho : op < 64) (ht : target < 67108864) :
    opField (jFormat op target) = op ∧ targetField (jFormat op target) = target := by
  simp only [opField, targetField, bits, jFormat, BitVec.toNat_ofNat]
  omega

/-- An R-format word is the sum of its fields. -/
theorem rFormat_of_fields {w : Word} (ho : opField w = 0) (hz : bits 10 6 w = 0) :
    rFormat (rsField w) (rtField w) (rdField w) (functField w) = w := by
  apply BitVec.eq_of_toNat_eq
  have := w.isLt
  simp only [opField, rsField, rtField, rdField, functField, bits, rFormat, BitVec.toNat_ofNat] at *
  omega

/-- An I-format word is the sum of its fields. -/
theorem iFormat_of_fields (w : Word) : iFormat (opField w) (rsField w) (rtField w) (immField w) = w := by
  apply BitVec.eq_of_toNat_eq
  have := w.isLt
  simp only [opField, rsField, rtField, immField, bits, iFormat, BitVec.toNat_ofNat] at *
  omega

/-- A J-format word is the sum of its fields. -/
theorem jFormat_of_fields (w : Word) : jFormat (opField w) (targetField w) = w := by
  apply BitVec.eq_of_toNat_eq
  have := w.isLt
  simp only [opField, targetField, bits, jFormat, BitVec.toNat_ofNat] at *
  omega

theorem field_bounds (w : Word) : opField w < 64 ∧ rsField w < 32 ∧ rtField w < 32 ∧ rdField w < 32 ∧
    functField w < 64 ∧ immField w < 65536 ∧ targetField w < 67108864 := by
  simp only [opField, rsField, rtField, rdField, functField, immField, targetField, bits]
  omega

/-! ### Immediates -/

theorem immInRange_iff {i : Int} : immInRange i = true ↔ -32768 ≤ i ∧ i < 32768 := by
  unfold immInRange immBits
  simp only [Bool.and_eq_true, decide_eq_true_eq]
  norm_num

theorem regInRange_iff {c : Config} {r : Nat} : regInRange c r = true ↔ r < c.numRegs := by
  unfold regInRange; rw [decide_eq_true_eq]

theorem targetInRange_iff {t : Nat} : targetInRange t = true ↔ t < 67108864 := by
  unfold targetInRange targetBits; rw [decide_eq_true_eq]; norm_num

/-- A register in range has a 5-bit field (R8, R73). -/
theorem regInRange_lt {c : Config} (hc : c.wf = true) {r : Nat} (hr : regInRange c r = true) : r < 32 := by
  have h := regInRange_iff.1 hr
  simp only [Config.wf, Bool.and_eq_true, decide_eq_true_eq] at hc
  omega

theorem imm16_lt (i : Int) : imm16 i < 65536 := by
  unfold imm16; omega

/-- A 16-bit field holds every immediate in range (R77, D7). -/
theorem sext16_imm16 {i : Int} (h : immInRange i = true) : sext16 (imm16 i) = i := by
  have := immInRange_iff.1 h
  unfold sext16 imm16
  split <;> omega

theorem imm16_sext16 {v : Nat} (h : v < 65536) : imm16 (sext16 v) = v := by
  unfold sext16 imm16
  split <;> omega

theorem zext16_imm16 {k : Int} (h : codeInRange k = true) : zext16 (imm16 k) = k := by
  simp only [codeInRange, Bool.or_eq_true, beq_iff_eq] at h
  unfold zext16 imm16
  omega

theorem imm16_zext16 {v : Nat} (h : v < 65536) : imm16 (zext16 v) = v := by
  unfold zext16 imm16; omega

/-! ### The rows of R76 -/

/-- Two rows that agree on op, and on funct where both have one, are one row: no word selects two. -/
theorem opTable_apart : ∀ r ∈ opTable, ∀ r' ∈ opTable, r.op = r'.op →
    (r.funct = none ∨ r'.funct = none ∨ r.funct = r'.funct) → r = r' := by
  decide

/-- The row a word selects is a row of the table, and its selection holds. -/
theorem selectRow_some {w : Word} {r : OpRow} (h : selectRow w = some r) : r ∈ opTable ∧ r.selects w = true :=
  ⟨List.mem_of_find?_eq_some h, List.find?_some (p := fun r => OpRow.selects r w) h⟩

theorem selects_iff {r : OpRow} {w : Word} :
    r.selects w = true ↔ opField w = r.op ∧ ∀ f, r.funct = some f → functField w = f := by
  cases hf : r.funct <;> simp [OpRow.selects, hf]

/-- The one row a word selects, for a row of the table whose selection holds. -/
theorem selectRow_of_selects {w : Word} {r : OpRow} (hr : r ∈ opTable) (hs : r.selects w = true) :
    selectRow w = some r := by
  cases h : selectRow w with
  | none => exact absurd hs (by simpa using List.find?_eq_none.1 h r hr)
  | some r' =>
    obtain ⟨hr', hs'⟩ := selectRow_some h
    obtain ⟨h1, h2⟩ := selects_iff.1 hs
    obtain ⟨h1', h2'⟩ := selects_iff.1 hs'
    rw [opTable_apart r hr r' hr' (by rw [← h1, ← h1'])]
    cases hf : r.funct with
    | none => exact .inl rfl
    | some f =>
      cases hf' : r'.funct with
      | none => exact .inr (.inl rfl)
      | some f' => exact .inr (.inr (by rw [← h2 f hf, ← h2' f' hf']))

/-- Decoding a word whose row is known (R78, R80). -/
theorem decodeWord_of_row {c : Config} {w : Word} {r : OpRow} (hr : r ∈ opTable) (hs : r.selects w = true) :
    decodeWord c w =
      if r.zerosHold w && (instrOfFields r.opcode w).wf c then .instr (instrOfFields r.opcode w)
      else .malformed r.opcode := by
  simp [decodeWord, selectRow_of_selects hr hs]

/-- A word is unknown exactly where no row selects it (R79). -/
theorem decodeWord_unknown_iff {c : Config} {w : Word} : decodeWord c w = .unknown ↔ selectRow w = none := by
  unfold decodeWord
  split
  · next h => simp [h]
  · next h => simp only [h, reduceCtorEq, iff_false]; split <;> simp

/-- A decoded instruction is well formed, and is the one its row's fields spell. -/
theorem decodeWord_instr {c : Config} {w : Word} {i : Instr} (h : decodeWord c w = .instr i) :
    ∃ r ∈ opTable, r.selects w = true ∧ r.zerosHold w = true ∧ instrOfFields r.opcode w = i ∧ i.wf c = true := by
  unfold decodeWord at h
  split at h
  · simp at h
  · next r hr =>
    obtain ⟨hmem, hs⟩ := selectRow_some hr
    split at h
    · next hz =>
      rw [Bool.and_eq_true] at hz
      cases h
      exact ⟨r, hmem, hs, hz.1, rfl, hz.2⟩
    · simp at h

/-- Decoding an R-format word of ADD, SUB or SLT. -/
theorem decodeWord_rFormat {c : Config} {o : Opcode} {f rs rt rd : Nat} (hf : f < 64) (hs : rs < 32) (ht : rt < 32)
    (hd : rd < 32) (hmem : ⟨o, 0, some f, [(10, 6)]⟩ ∈ opTable) :
    decodeWord c (rFormat rs rt rd f) =
      if (instrOfFields o (rFormat rs rt rd f)).wf c then .instr (instrOfFields o (rFormat rs rt rd f))
      else .malformed o := by
  obtain ⟨h1, -, -, -, h5, h6⟩ := rFormat_fields hs ht hd hf
  rw [decodeWord_of_row hmem (selects_iff.2 ⟨h1, fun f' hf' => by cases hf'; exact h6⟩)]
  simp [OpRow.zerosHold, h5]

/-- Decoding an I-format word of a row with no must-be-zero field. -/
theorem decodeWord_iFormat {c : Config} {o : Opcode} {op rs rt imm : Nat} (ho : op < 64) (hs : rs < 32)
    (ht : rt < 32) (hi : imm < 65536) (hmem : ⟨o, op, none, []⟩ ∈ opTable) :
    decodeWord c (iFormat op rs rt imm) =
      if (instrOfFields o (iFormat op rs rt imm)).wf c then .instr (instrOfFields o (iFormat op rs rt imm))
      else .malformed o := by
  obtain ⟨h1, -, -, -⟩ := iFormat_fields ho hs ht hi
  rw [decodeWord_of_row hmem (selects_iff.2 ⟨h1, fun f' hf' => by cases hf'⟩)]
  simp [OpRow.zerosHold]

/-- Decoding a J-format word of a row with no must-be-zero field. -/
theorem decodeWord_jFormat {c : Config} {o : Opcode} {op t : Nat} (ho : op < 64) (ht : t < 67108864)
    (hmem : ⟨o, op, none, []⟩ ∈ opTable) :
    decodeWord c (jFormat op t) =
      if (instrOfFields o (jFormat op t)).wf c then .instr (instrOfFields o (jFormat op t)) else .malformed o := by
  obtain ⟨h1, -⟩ := jFormat_fields ho ht
  rw [decodeWord_of_row hmem (selects_iff.2 ⟨h1, fun f' hf' => by cases hf'⟩)]
  simp [OpRow.zerosHold]

/-! ### The formats as concatenations -/

theorem toNat_concat {n k : Nat} (x : BitVec n) (y : BitVec k) : (x ++ y).toNat = x.toNat * 2 ^ k + y.toNat := by
  rw [BitVec.toNat_append, ← Nat.shiftLeft_add_eq_or_of_lt y.isLt, Nat.shiftLeft_eq]

namespace Machine

theorem rWord_eq (rs rt rd : BitVec 5) (funct : BitVec 6) :
    rWord rs rt rd 0#5 funct = rFormat rs.toNat rt.toNat rd.toNat funct.toNat := by
  apply BitVec.eq_of_toNat_eq
  have := rs.isLt; have := rt.isLt; have := rd.isLt; have := funct.isLt
  simp only [rWord, rFormat, toNat_concat, BitVec.toNat_ofNat]
  omega

theorem iWord_eq (op : BitVec 6) (rs rt : BitVec 5) (imm : BitVec 16) :
    iWord op rs rt imm = iFormat op.toNat rs.toNat rt.toNat imm.toNat := by
  apply BitVec.eq_of_toNat_eq
  have := op.isLt; have := rs.isLt; have := rt.isLt; have := imm.isLt
  simp only [iWord, iFormat, toNat_concat, BitVec.toNat_ofNat]
  omega

theorem jWord_eq (op : BitVec 6) (target : BitVec 26) : jWord op target = jFormat op.toNat target.toNat := by
  apply BitVec.eq_of_toNat_eq
  have := op.isLt; have := target.isLt
  simp only [jWord, jFormat, toNat_concat, BitVec.toNat_ofNat]
  omega

/-- The R format of operands in range, field by field (R73, R77). -/
theorem rWord_ofNat {c : Config} (hc : c.wf = true) {rs rt rd : Nat} (hs : regInRange c rs = true)
    (ht : regInRange c rt = true) (hd : regInRange c rd = true) {f : Nat} (hf : f < 64) :
    rWord (BitVec.ofNat 5 rs) (BitVec.ofNat 5 rt) (BitVec.ofNat 5 rd) 0#5 (BitVec.ofNat 6 f) = rFormat rs rt rd f := by
  have := regInRange_lt hc hs; have := regInRange_lt hc ht; have := regInRange_lt hc hd
  rw [rWord_eq]
  simp only [BitVec.toNat_ofNat]
  rw [Nat.mod_eq_of_lt (by omega), Nat.mod_eq_of_lt (by omega), Nat.mod_eq_of_lt (by omega), Nat.mod_eq_of_lt (by omega)]

/-- The I format of operands in range (R74, R77). -/
theorem iWord_ofNat {c : Config} (hc : c.wf = true) {rs rt : Nat} (hs : regInRange c rs = true)
    (ht : regInRange c rt = true) (i : Int) {op : Nat} (ho : op < 64) :
    iWord (BitVec.ofNat 6 op) (BitVec.ofNat 5 rs) (BitVec.ofNat 5 rt) (BitVec.ofInt 16 i) =
      iFormat op rs rt (imm16 i) := by
  have := regInRange_lt hc hs; have := regInRange_lt hc ht
  have hi : (BitVec.ofInt 16 i).toNat = imm16 i := by simp [BitVec.toNat_ofInt, imm16]
  rw [iWord_eq, hi]
  simp only [BitVec.toNat_ofNat]
  rw [Nat.mod_eq_of_lt (by omega), Nat.mod_eq_of_lt (by omega), Nat.mod_eq_of_lt (by omega)]

/-- The J format of a target in range (R75, R77). -/
theorem jWord_ofNat {t : Nat} (ht : targetInRange t = true) {op : Nat} (ho : op < 64) :
    jWord (BitVec.ofNat 6 op) (BitVec.ofNat 26 t) = jFormat op t := by
  have := targetInRange_iff.1 ht
  rw [jWord_eq]
  simp only [BitVec.toNat_ofNat]
  rw [Nat.mod_eq_of_lt (by omega), Nat.mod_eq_of_lt (by omega)]

end Machine

end Sys2Proof
end

