-- ==== Sys2Proof/Laws/HostPort.lean ====
section
/-! SUPPORT. What the load port's `initialize` does (20_memory.md R39): the mapped words, `word(0)` elsewhere, and the
canonical form. -/

namespace Sys2Proof.Machine

/-- Bulk writes over a canonical memory: the canonical form is kept, an index not mapped is as before. -/
theorem foldl_write_spec : ∀ (l : List (Nat × Word)) (m : Memory), m.wf = true →
    (l.foldl (fun m d => m.write d.1 d.2) m).wf = true ∧
    ∀ w, w ∉ l.map Prod.fst → (l.foldl (fun m d => m.write d.1 d.2) m).read w = m.read w
  | [], m, h => ⟨h, fun _ _ => rfl⟩
  | (a, v) :: l, m, h => by
    obtain ⟨h1, h2⟩ := foldl_write_spec l (m.write a v) (Memory.wf_write h a v)
    refine ⟨h1, fun w hw => ?_⟩
    simp only [List.map_cons, List.mem_cons, not_or] at hw
    rw [List.foldl_cons, h2 w hw.2, Memory.read_write h, if_neg (Ne.symm hw.1)]

/-- A mapped index, mapped once, reads as its word. -/
theorem foldl_write_read : ∀ (l : List (Nat × Word)) (m : Memory), m.wf = true → (l.map Prod.fst).Nodup →
    ∀ d ∈ l, (l.foldl (fun m d => m.write d.1 d.2) m).read d.1 = d.2
  | (a, v) :: l, m, h, hn, d, hd => by
    simp only [List.map_cons, List.nodup_cons] at hn
    have hw := Memory.wf_write h a v
    rcases List.mem_cons.1 hd with rfl | hd
    · rw [List.foldl_cons, (foldl_write_spec l _ hw).2 _ hn.1, Memory.read_write h, if_pos rfl]
    · exact foldl_write_read l _ hw hn.2 d hd

theorem foldl_write_inRange {c : Config} : ∀ (l : List (Nat × Word)) (m : Memory), m.inRange c = true →
    (∀ d ∈ l, d.1 < c.memWords) → (l.foldl (fun m d => m.write d.1 d.2) m).inRange c = true
  | [], _, h, _ => h
  | (a, v) :: l, _, h, hl => foldl_write_inRange l _ (Memory.inRange_write h (hl _ (by simp)) v)
      fun d hd => hl d (by simp [hd])

theorem initialize_wf (l : List (Nat × Word)) : (Memory.initialize l).wf = true :=
  (foldl_write_spec l Memory.zero Memory.wf_zero).1

theorem initialize_unmapped (l : List (Nat × Word)) {w : Nat} (h : w ∉ l.map Prod.fst) :
    (Memory.initialize l).read w = 0#32 := (foldl_write_spec l Memory.zero Memory.wf_zero).2 w h

theorem initialize_mapped {l : List (Nat × Word)} (hn : (l.map Prod.fst).Nodup) {d : Nat × Word} (hd : d ∈ l) :
    (Memory.initialize l).read d.1 = d.2 := foldl_write_read l Memory.zero Memory.wf_zero hn d hd

/-- Reset leaves every line of the array invalid, clean and zero. -/
theorem lineAt_resetWith (c : Config) (prog : List Entry) (m : Memory) (i : Nat) :
    lineAt (State.resetWith c prog m) i = CacheLine.reset c := by
  simp only [lineAt, State.resetWith, List.getD_eq_getElem?_getD, List.getElem?_replicate]
  split <;> rfl

end Sys2Proof.Machine
end

