-- ==== Sys2Proof/Laws/PerInstr.lean ====
section
/-! SUPPORT. The statement families made for each instruction, with one lemma for each constructor.

RecordForm: the record an instruction is spelled by decodes back to it, whenever the instruction is well formed
(30_encoding.md R67, R69, R70). -/

namespace Sys2Proof.Laws.RecordForm

/-- The record decoder undoes `Instr.toRecord` on well-formed instructions. -/
def Statement (i : Instr) : Prop := ∀ c : Config, i.wf c = true → decodeRecord c i.toRecord = .instr i

theorem three {c : Config} {a b d : Nat}
    (h : (regInRange c a && regInRange c b && regInRange c d) = true) :
    regInRange c a = true ∧ regInRange c b = true ∧ regInRange c d = true := by
  simpa [and_assoc] using h

theorem add (rd rs rt : Nat) : Statement (.add rd rs rt) := by
  intro c h
  obtain ⟨h1, h2, h3⟩ := three h
  simp [decodeRecord, Instr.toRecord, Instr.opcode, Instr.operands, buildInstr, operandsWf, Operand.kind,
    Opcode.shape, Operand.wellTyped, h1, h2, h3]

theorem sub (rd rs rt : Nat) : Statement (.sub rd rs rt) := by
  intro c h
  obtain ⟨h1, h2, h3⟩ := three h
  simp [decodeRecord, Instr.toRecord, Instr.opcode, Instr.operands, buildInstr, operandsWf, Operand.kind,
    Opcode.shape, Operand.wellTyped, h1, h2, h3]

theorem slt (rd rs rt : Nat) : Statement (.slt rd rs rt) := by
  intro c h
  obtain ⟨h1, h2, h3⟩ := three h
  simp [decodeRecord, Instr.toRecord, Instr.opcode, Instr.operands, buildInstr, operandsWf, Operand.kind,
    Opcode.shape, Operand.wellTyped, h1, h2, h3]

theorem two {c : Config} {a b : Nat} {n : Int}
    (h : (regInRange c a && regInRange c b && immInRange n) = true) :
    regInRange c a = true ∧ regInRange c b = true ∧ immInRange n = true := by
  simpa [and_assoc] using h

theorem addi (rt rs : Nat) (immd : Int) : Statement (.addi rt rs immd) := by
  intro c h
  obtain ⟨h1, h2, h3⟩ := two h
  simp [decodeRecord, Instr.toRecord, Instr.opcode, Instr.operands, buildInstr, operandsWf, Operand.kind,
    Opcode.shape, Operand.wellTyped, h1, h2, h3]

theorem subi (rd rs : Nat) (immd : Int) : Statement (.subi rd rs immd) := by
  intro c h
  obtain ⟨h1, h2, h3⟩ := two h
  simp [decodeRecord, Instr.toRecord, Instr.opcode, Instr.operands, buildInstr, operandsWf, Operand.kind,
    Opcode.shape, Operand.wellTyped, h1, h2, h3]

theorem bne (rs rt : Nat) (offset : Int) : Statement (.bne rs rt offset) := by
  intro c h
  obtain ⟨h1, h2, h3⟩ := two h
  simp [decodeRecord, Instr.toRecord, Instr.opcode, Instr.operands, buildInstr, operandsWf, Operand.kind,
    Opcode.shape, Operand.wellTyped, h1, h2, h3]

theorem j (target : Nat) : Statement (.j target) := by
  intro c h
  have h : targetInRange target = true := h
  simp [decodeRecord, Instr.toRecord, Instr.opcode, Instr.operands, buildInstr, operandsWf, Operand.kind,
    Opcode.shape, Operand.wellTyped, h]

theorem jal (target : Nat) : Statement (.jal target) := by
  intro c h
  have h : targetInRange target = true := h
  simp [decodeRecord, Instr.toRecord, Instr.opcode, Instr.operands, buildInstr, operandsWf, Operand.kind,
    Opcode.shape, Operand.wellTyped, h]

theorem lw (rt : Nat) (offset : Int) (rs : Nat) : Statement (.lw rt offset rs) := by
  intro c h
  obtain ⟨h1, h2, h3⟩ := two h
  simp [decodeRecord, Instr.toRecord, Instr.opcode, Instr.operands, buildInstr, operandsWf, Operand.kind,
    Opcode.shape, Operand.wellTyped, h1, h2, h3]

theorem sw (rt : Nat) (offset : Int) (rs : Nat) : Statement (.sw rt offset rs) := by
  intro c h
  obtain ⟨h1, h2, h3⟩ := two h
  simp [decodeRecord, Instr.toRecord, Instr.opcode, Instr.operands, buildInstr, operandsWf, Operand.kind,
    Opcode.shape, Operand.wellTyped, h1, h2, h3]

theorem cache (code : Int) : Statement (.cache code) := by
  intro c h
  have h : codeInRange code = true := h
  have hi : immInRange code = true := by
    rw [immInRange_iff]
    simp only [codeInRange, Bool.or_eq_true, beq_iff_eq] at h
    omega
  simp [decodeRecord, Instr.toRecord, Instr.opcode, Instr.operands, buildInstr, operandsWf, Operand.kind,
    Opcode.shape, Operand.wellTyped, h, hi]

theorem nop : Statement .nop := fun _ _ => rfl

theorem halt : Statement .halt := fun _ _ => rfl

end Sys2Proof.Laws.RecordForm
end

