-- ==== Sys2Proof/Machine/Assembly.lean ====
section
/-! DEFINITION. The assembler's spelling of an instruction (30_encoding.md R84, R85; the spec's D27). Parsing text
is excluded software (00_scope.md R4), so only the spelling is here (log entry 17). -/

namespace Sys2Proof.Machine

/-- `R<n>`, n a decimal index. -/
def asmReg (n : Nat) : String := "R" ++ toString n

/-- A decimal integer, with a leading `-` where it is negative. -/
def asmInt (n : Int) : String := toString n

/-- `offset(Rs)`, the memory operand of LW and SW. -/
def asmMem (offset : Int) (rs : Nat) : String := asmInt offset ++ "(" ++ asmReg rs ++ ")"

/-- Three operands, separated by commas. -/
def asm3 (m a b c : String) : String := m ++ " " ++ a ++ "," ++ b ++ "," ++ c

/-- One instruction as one line: the mnemonic in upper case, then the operands in the order of R69. -/
def asmOf : Instr → String
  | .add rd rs rt     => asm3 "ADD" (asmReg rd) (asmReg rs) (asmReg rt)
  | .addi rt rs immd  => asm3 "ADDI" (asmReg rt) (asmReg rs) (asmInt immd)
  | .sub rd rs rt     => asm3 "SUB" (asmReg rd) (asmReg rs) (asmReg rt)
  | .subi rd rs immd  => asm3 "SUBI" (asmReg rd) (asmReg rs) (asmInt immd)
  | .slt rd rs rt     => asm3 "SLT" (asmReg rd) (asmReg rs) (asmReg rt)
  | .bne rs rt offset => asm3 "BNE" (asmReg rs) (asmReg rt) (asmInt offset)
  | .j target         => "J " ++ toString target
  | .jal target       => "JAL " ++ toString target
  | .lw rt offset rs  => "LW " ++ asmReg rt ++ "," ++ asmMem offset rs
  | .sw rt offset rs  => "SW " ++ asmReg rt ++ "," ++ asmMem offset rs
  | .cache code       => "CACHE " ++ asmInt code
  | .nop              => "NOP"
  | .halt             => "HALT"

end Sys2Proof.Machine
end

