-- ==== Sys2Proof/Tests/Slice0.lean ====
section
/-! SUPPORT. The model's own tests: ill-formed terms WellFormed refuses, words written out from the spec's encodings,
one-step tests whose results are the spec's worked examples and vectors (95_test_vectors.md, cited by their ids), and
for each obligation with hypotheses a concrete state and operands that meet them. -/

namespace Sys2Proof.Tests

open Sys2Proof Sys2Proof.Machine

/-! ### Helpers -/

/-- The next state, where there is one. -/
def nextOf : Host.Outcome State Fault Refusal → Option State
  | .next t => some t
  | .fault _ => none
  | .refused _ => none

/-- Registers set one by one. -/
def withRegs (l : List (Nat × Int)) (s : State) : State := l.foldl (fun s d => writeReg s d.1 (word d.2)) s

/-- The reset state (default configuration) with registers set, the pc, and MemoryBus words. -/
def boot (regs : List (Nat × Int)) (pc : Int) (mem : List (Nat × Word)) : State :=
  setMem (setPc (withRegs regs State.reset) (word pc)) (Memory.initialize mem)

/-- One step on an instruction word placed where the next fetch reads. -/
def runWord (w : Nat) (s : State) : Option State := nextOf (step (s.withFetchWord 32 w))

/-- A register read as a signed integer and the pc, after one step. -/
def regAndPc (r : Nat) (o : Option State) : Option (Int × Nat) := o.map fun t => (signedReg t r, uint t.pc)

/-- The kind of the error a step reported, and the pc it recorded. -/
def errorOf (o : Option State) : Option (ErrorKind × Nat) :=
  o.bind fun t => t.errorReport.map fun r => (r.kind, uint r.pcAtFailure)

/-- A small geometry: 8 registers, 16 words, two lines of two words. -/
def small : Config := { numRegs := 8, capacity := 64, blockSize := 2, numLines := 2 }

/-- A small state: line 0 valid and dirty with tag 1 (words 4 and 5), line 1 valid and clean with tag 0 (words 2, 3). -/
def warm (on : Bool) (prog : List Entry) : State :=
  { State.resetWith small prog ⟨[(2, 7#32), (4, 1#32), (8, 3#32)]⟩ with
    regs := [0#32, 16#32, 5#32, 0xFFFFFFF9#32, 32#32, 8#32, 0#32, 99#32]
    cacheOn := on
    lines := [⟨true, true, 1, [0xAA#32, 0xBB#32]⟩, ⟨true, false, 0, [7#32, 0#32]⟩] }

/-- The small reset state, every line invalid, with a program of words. -/
def cold (prog : List Entry) : State := State.resetWith small prog Memory.zero

/-! ### WellFormed refuses each ill-formed field (30_encoding.md R68, R70) -/

theorem test_wf_register_at_the_limit : regInRange Config.default 31 = true ∧ regInRange Config.default 32 = false := by
  decide
theorem test_wf_register_small : regInRange small 7 = true ∧ regInRange small 8 = false := by decide
theorem test_wf_immediate_low : immInRange (-32768) = true ∧ immInRange (-32769) = false := by decide
theorem test_wf_immediate_high : immInRange 32767 = true ∧ immInRange 32768 = false := by decide
theorem test_wf_target : targetInRange 67108863 = true ∧ targetInRange 67108864 = false := by decide
theorem test_wf_code : codeInRange 2 = true ∧ codeInRange 3 = false ∧ codeInRange (-1) = false := by decide
theorem test_wf_refuses_add : (Instr.add 32 1 2).wf .default = false ∧ (Instr.add 3 32 2).wf .default = false ∧
    (Instr.add 3 1 32).wf .default = false := by decide
theorem test_wf_refuses_sub : (Instr.sub 32 1 2).wf .default = false := by decide
theorem test_wf_refuses_slt : (Instr.slt 3 1 32).wf .default = false := by decide
theorem test_wf_refuses_addi : (Instr.addi 32 1 0).wf .default = false ∧ (Instr.addi 1 1 40000).wf .default = false := by
  decide
theorem test_wf_refuses_subi : (Instr.subi 1 32 0).wf .default = false ∧ (Instr.subi 1 1 (-32769)).wf .default = false := by
  decide
theorem test_wf_refuses_bne : (Instr.bne 1 32 0).wf .default = false ∧ (Instr.bne 1 2 32768).wf .default = false := by
  decide
theorem test_wf_refuses_j : (Instr.j 67108864).wf .default = false := by decide
theorem test_wf_refuses_jal : (Instr.jal 67108864).wf .default = false := by decide
theorem test_wf_refuses_lw : (Instr.lw 1 0 40).wf .default = false ∧ (Instr.lw 1 32768 1).wf .default = false := by decide
theorem test_wf_refuses_sw : (Instr.sw 40 0 1).wf .default = false ∧ (Instr.sw 1 (-32769) 1).wf .default = false := by decide
theorem test_wf_refuses_cache : (Instr.cache 3).wf .default = false := by decide

/-! ### Configurations (00_scope.md R8) -/

theorem test_config_default : Config.default.wf = true ∧ Config.default.memWords = 262144 ∧
    Config.default.wordAddrBits = 18 ∧ Config.default.offsetBits = 4 ∧ Config.default.indexBits = 6 ∧
    Config.default.tagBits = 8 := by decide
theorem test_config_refused : ({ numRegs := 7 } : Config).wf = false ∧ ({ numRegs := 33 } : Config).wf = false ∧
    ({ capacity := 96 } : Config).wf = false ∧ ({ blockSize := 3 } : Config).wf = false ∧
    ({ numLines := 0 } : Config).wf = false ∧ ({ capacity := 64, numLines := 2 } : Config).wf = false ∧
    ({ capacity := 2 } : Config).wf = false := by decide

/-! ### Decoding: words written bit by bit from R73 to R77, and the verdicts of 95_test_vectors.md 2.6 -/

-- fields, most significant first: op rs rt rd shamt funct
theorem test_decode_add : decodeWord .default 0b000000_00001_00010_00011_00000_100000#32 = .instr (.add 3 1 2) := by decide
theorem test_decode_sub : decodeWord .default 0b000000_00001_00010_00011_00000_100010#32 = .instr (.sub 3 1 2) := by decide
theorem test_decode_slt : decodeWord .default 0b000000_00001_00010_00011_00000_101010#32 = .instr (.slt 3 1 2) := by decide
theorem test_decode_nop : decodeWord .default 0b000000_00000_00000_00000_00000_000000#32 = .instr .nop := by decide
-- fields: op rs rt imm16
theorem test_decode_addi : decodeWord .default 0b001000_00001_00010_1111111111111011#32 = .instr (.addi 2 1 (-5)) := by decide
theorem test_decode_subi : decodeWord .default 0b011000_00001_00010_1000000000000000#32 = .instr (.subi 2 1 (-32768)) := by
  decide
theorem test_decode_bne : decodeWord .default 0b000101_00001_00010_1111111111111101#32 = .instr (.bne 1 2 (-3)) := by decide
theorem test_decode_lw : decodeWord .default 0b100011_00001_00100_0000000000001000#32 = .instr (.lw 4 8 1) := by decide
theorem test_decode_sw : decodeWord .default 0b101011_00001_00100_0111111111111111#32 = .instr (.sw 4 32767 1) := by decide
theorem test_decode_cache : decodeWord .default 0b101111_00000_00000_0000000000000010#32 = .instr (.cache 2) := by decide
-- fields: op target26
theorem test_decode_j : decodeWord .default 0b000010_11111111111111111111111111#32 = .instr (.j 67108863) := by decide
theorem test_decode_jal : decodeWord .default 0b000011_00000000000000000000001010#32 = .instr (.jal 10) := by decide
theorem test_decode_halt : decodeWord .default 0b111111_00000000000000000000000000#32 = .instr .halt := by decide

theorem test_x1_to_x5 : decodeWord .default 0x00000000#32 = .instr .nop ∧ decodeWord .default 0x00000001#32 = .unknown ∧
    decodeWord .default 0x00000008#32 = .unknown ∧ decodeWord .default 0x00000040#32 = .malformed .nop ∧
    decodeWord .default 0x00221860#32 = .malformed .add := by decide
theorem test_x6_to_x11 : decodeWord .default 0x04000000#32 = .unknown ∧ decodeWord .default 0x7C000000#32 = .unknown ∧
    decodeWord .default 0xBC000003#32 = .malformed .cache ∧ decodeWord .default 0xBC200001#32 = .malformed .cache ∧
    decodeWord .default 0xFC000001#32 = .malformed .halt ∧ decodeWord .default 0xFFFFFFFF#32 = .malformed .halt := by decide
theorem test_x12_x13 : decodeWord small 0x00281820#32 = .malformed .add ∧
    decodeWord .default 0x00281820#32 = .instr (.add 3 1 8) := by decide
theorem test_x14_to_x17 : decodeRecord .default ⟨.known .add, [.reg 1, .reg 2]⟩ = .malformed .add ∧
    decodeRecord .default ⟨.known .addi, [.reg 1, .reg 0, .imm 40000]⟩ = .malformed .addi ∧
    decodeRecord .default ⟨.unknown, []⟩ = .unknown ∧
    decodeRecord .default ⟨.known .lw, [.reg 1, .offset 3, .reg 40]⟩ = .malformed .lw := by decide
theorem test_record_kinds : decodeRecord .default ⟨.known .addi, [.reg 1, .reg 0, .offset 4]⟩ = .malformed .addi ∧
    decodeRecord .default ⟨.known .add, [.reg (-1), .reg 0, .reg 4]⟩ = .malformed .add ∧
    decodeRecord .default ⟨.known .cache, [.imm 3]⟩ = .malformed .cache ∧
    decodeRecord .default ⟨.known .halt, [.imm 0]⟩ = .malformed .halt := by decide

-- the words of the programs P1 to P6
theorem test_encode_program_words : encode (.addi 1 0 5) = 0x20010005#32 ∧ encode (.add 2 2 1) = 0x00411020#32 ∧
    encode (.subi 1 1 1) = 0x60210001#32 ∧ encode (.bne 1 0 (-3)) = 0x1420FFFD#32 ∧ encode .halt = 0xFC000000#32 ∧
    encode (.sw 2 0 1) = 0xAC220000#32 ∧ encode (.lw 3 0 1) = 0x8C230000#32 ∧ encode (.jal 2) = 0x0C000002#32 := by decide

/-- No word is selected by two rows of R76: the rows' op and funct numbers differ pairwise. -/
theorem test_rows_disjoint : opTable.Pairwise fun a b =>
    a.op ≠ b.op ∨ (a.funct.isSome = true ∧ b.funct.isSome = true ∧ a.funct ≠ b.funct) := by decide

theorem test_table_word : decodeTableWord 32 0x00221820 = some (.add 3 1 2) ∧ decodeTableWord 32 1 = none := by decide

/-! ### One step: the vectors of 95_test_vectors.md -/

theorem test_a2_add_wraps : regAndPc 3 (runWord 0x00221820 (boot [(1, 2147483647), (2, 1)] 0 [])) =
    some (-2147483648, 4) := by decide
theorem test_a4_add_reads_before_it_writes : regAndPc 1 (runWord 0x00210820 (boot [(1, 3)] 0 [])) = some (6, 4) := by decide
theorem test_a11_addi_sign_extends : regAndPc 2 (runWord 0x20228000 (boot [] 0 [])) = some (-32768, 4) := by decide
theorem test_a13_addi_wraps : regAndPc 2 (runWord 0x2022FFFF (boot [(1, -2147483648)] 0 [])) = some (2147483647, 4) := by decide
theorem test_a5_sub : regAndPc 3 (runWord 0x00221822 (boot [(1, 5), (2, 7)] 0 [])) = some (-2, 4) := by decide
theorem test_a7_sub_wraps : regAndPc 3 (runWord 0x00221822 (boot [(2, -2147483648)] 0 [])) = some (-2147483648, 4) := by decide
theorem test_a15_subi_subtracts_a_negative : regAndPc 2 (runWord 0x60228000 (boot [] 0 [])) = some (32768, 4) := by decide
theorem test_a16_subi_wraps : regAndPc 2 (runWord 0x60220001 (boot [(1, -2147483648)] 0 [])) = some (2147483647, 4) := by decide
theorem test_a18_slt_is_signed : regAndPc 3 (runWord 0x0022182A (boot [(1, -1), (2, 1)] 0 [])) = some (1, 4) := by decide
theorem test_a20_slt_is_strict : regAndPc 3 (runWord 0x0022182A (boot [(1, 5), (2, 5), (3, 8)] 0 [])) = some (0, 4) := by decide
theorem test_b1_bne_taken : regAndPc 1 (runWord 0x14220003 (boot [(1, 1), (2, 2)] 8 [])) = some (1, 24) := by decide
theorem test_b6_bne_wraps_the_pc : regAndPc 1 (runWord 0x1422FFFE (boot [(1, 1), (2, 2)] 0 [])) = some (1, 4294967292) := by
  decide
theorem test_b9_j : regAndPc 7 (runWord 0x0BFFFFFF (boot [] 0 [])) = some (0, 268435452) := by decide
theorem test_b10_jal : regAndPc 7 (runWord 0x0C00000A (boot [(7, 99)] 20 [])) = some (24, 40) := by decide
theorem test_l1_lw : regAndPc 4 (runWord 0x8C240008 (boot [(1, 16)] 0 [(6, 99#32)])) = some (99, 4) := by decide
theorem test_l7_lw_does_not_wrap : errorOf (runWord 0x8C220001 (boot [(1, 2147483647)] 0 [])) =
    some (.addressError, 0) := by decide
theorem test_l10_sw : (runWord 0xAC240008 (boot [(1, 16), (4, 5)] 0 [])).map State.mem = some ⟨[(6, 5#32)]⟩ := by decide
theorem test_l11_sw_allocates : (runWord 0xAC240008 (setEnabled (boot [(1, 16), (4, 5)] 0 []) true)).map
    (fun t => (t.mem, (lineAt t 0).valid, (lineAt t 0).dirty, (lineAt t 0).tag, lineData t 0 6)) =
      some (⟨[]⟩, true, true, 0, 5#32) := by decide
theorem test_s1_s2_cache_switch : (runWord 0xBC000001 (boot [] 0 [])).map (fun t => (t.cacheOn, t.pc)) = some (true, 4#32) ∧
    (nextOf (exec (.cache 0) (warm true []))).map (fun t => (t.cacheOn, t.lines, t.mem)) =
      some (false, (warm true []).lines, (warm true []).mem) := by decide
theorem test_s4_cache_two_when_off : (nextOf (exec (.cache 2) (warm false []))).map
    (fun t => (t.cacheOn, (lineAt t 0).dirty, (lineAt t 0).valid, t.mem)) =
      some (false, false, true, ⟨[(2, 7#32), (4, 0xAA#32), (5, 0xBB#32), (8, 3#32)]⟩) := by decide
theorem test_s6_nop : (runWord 0 (boot [] 4 [])).map State.pc = some 8#32 := by decide
theorem test_s7_halt : (nextOf (exec .halt (setPc (warm true []) 20#32))).map
    (fun t => (t.status, t.pc, t.mem.read 4, (lineAt t 0).dirty)) = some (.halted, 20#32, 0xAA#32, false) := by decide
theorem test_s8_halt_without_flush : (nextOf (exec .halt (warm false []))).map
    (fun t => (t.status, t.mem.read 4, (lineAt t 0).dirty)) = some (.halted, 1#32, true) := by decide

/-! ### Registers, errors, the end of the program -/

theorem test_a24_register_zero_is_ordinary : regAndPc 0 (runWord 0x20000005 (boot [] 0 [])) = some (5, 4) := by decide
theorem test_a25_register_zero_hardwired :
    regAndPc 0 (runWord 0x20000005 (State.resetWith { r0Hardwired := true } [] Memory.zero)) = some (0, 4) := by decide
theorem test_w10_lw_misaligned : errorOf (runWord 0x8C050003 (boot [] 12 [])) = some (.addressError, 12) := by decide
theorem test_x2_x8_errors : errorOf (runWord 1 (boot [] 4 [])) = some (.executionError, 4) ∧
    errorOf (runWord 0xBC000003 (boot [] 4 [])) = some (.decodeError, 4) := by decide
theorem test_p6_end_of_program : errorOf (nextOf (step (setPc (cold [.word 0x20010001#32]) 4#32))) =
    some (.executionError, 4) := by decide
theorem test_p6_implicit_halt : (nextOf (step (setPc (State.resetWith { small with implicitHalt := true }
    [.word 0x20010001#32] Memory.zero) 4#32))).map (fun t => (t.status, t.pc)) = some (.halted, 4#32) := by decide
theorem test_s9_halt_advances : (nextOf (exec .halt (State.resetWith { small with haltAdvancesPc := true } [] Memory.zero))).map
    (fun t => (t.status, t.pc)) = some (.halted, 4#32) := by decide

/-! ### Cache addresses (95_test_vectors.md 2.4), memory form, load port, spelling -/

theorem test_decompose_default : (tagOf .default 74564, indexOf .default 74564, offsetOf .default 74564,
    baseByte .default 18 13) = (18, 13, 1, 74560) := by decide
theorem test_decompose_last : (tagOf .default 1048572, indexOf .default 1048572, offsetOf .default 1048572,
    baseByte .default 255 63) = (255, 63, 15, 1048512) := by decide
theorem test_decompose_other : (tagOf { blockSize := 32, numLines := 2 } 74564, indexOf { blockSize := 32, numLines := 2 } 74564,
    offsetOf { blockSize := 32, numLines := 2 } 74564, baseByte { blockSize := 32, numLines := 2 } 291 0) =
      (291, 0, 17, 74496) := by decide
theorem test_decompose_one_line : (tagOf { blockSize := 1, numLines := 1 } 4100, indexOf { blockSize := 1, numLines := 1 } 4100,
    offsetOf { blockSize := 1, numLines := 1 } 4100, baseByte { blockSize := 1, numLines := 1 } 1025 0) =
      (1025, 0, 0, 4100) := by decide
-- K4's shape: a miss on a dirty line writes its block back, then fills the new one
theorem test_k4_eviction : (nextOf (exec (.lw 6 0 4) (warm true []))).map
    (fun t => (readReg t 6, t.mem, lineAt t 0)) =
      some (3#32, ⟨[(2, 7#32), (4, 0xAA#32), (5, 0xBB#32), (8, 3#32)]⟩, ⟨true, false, 2, [3#32, 0#32]⟩) := by decide
theorem test_k5_write_miss_on_a_clean_line : (nextOf (exec (.sw 2 12 4) (warm true []))).map
    (fun t => (t.mem, lineAt t 1)) = some ((warm true []).mem, ⟨true, true, 2, [0#32, 5#32]⟩) := by decide
theorem test_memory_canonical : (Memory.zero.write 5 1#32).write 3 2#32 = ⟨[(3, 2#32), (5, 1#32)]⟩ ∧
    ((Memory.zero.write 5 1#32).write 5 0#32) = Memory.zero ∧ (Memory.mk [(5, 1#32), (3, 2#32)]).wf = false ∧
    (Memory.mk [(5, 0#32)]).wf = false := by decide
theorem test_w12_base_two : wordIndexOfBase2 "00000100".toList = some 4 ∧ wordIndexOfBase2 "00000120".toList = none ∧
    wordIndexOfBase2 [] = none := by decide
theorem test_load : (State.load small [] [(15, -1), (0, 4294967295)]).map (fun s => s.mem) =
    some ⟨[(0, 0xFFFFFFFF#32), (15, 0xFFFFFFFF#32)]⟩ := by decide
theorem test_load_refuses : State.load small [] [(16, 0)] = none ∧ State.load small [] [(0, 4294967296)] = none ∧
    State.load small [] [(0, -2147483649)] = none ∧ State.load small [] [(3, 1), (3, 1)] = none ∧
    State.load { numRegs := 7 } [] [] = none := by decide
theorem test_spelling : asmOf (.add 3 1 2) = "ADD R3,R1,R2" ∧ asmOf (.addi 1 0 (-5)) = "ADDI R1,R0,-5" ∧
    asmOf (.bne 1 2 (-3)) = "BNE R1,R2,-3" ∧ asmOf (.j 10) = "J 10" ∧ asmOf (.lw 4 8 1) = "LW R4,8(R1)" ∧
    asmOf (.cache 1) = "CACHE 1" ∧ asmOf .halt = "HALT" := by decide
theorem test_snapshot : (warm true []).snapshotRegs = [0, 16, 5, -7, 32, 8, 0, 99] ∧ (warm true []).snapshotWord 4 = 1#32 := by
  decide

/-! ### Witnesses: concrete states that meet the hypotheses of the obligations -/

/-- The invariant of a running state, from its decidable parts. -/
theorem inv_of_running {s : State} (h1 : s.cfg.wf = true) (h2 : s.regs.length = s.cfg.numRegs) (h3 : uint s.pc % 4 = 0)
    (h4 : s.lines.length = s.cfg.numLines) (h5 : ∀ l ∈ s.lines, l.wf s.cfg = true) (h6 : s.mem.wf = true)
    (h7 : s.mem.inRange s.cfg = true) (h8 : s.status = .running) : Inv s :=
  ⟨h1, h2, h3, h4, h5, h6, h7, fun r hr => by rw [h8] at hr; cases hr⟩

/-- The invariant of a warm state at any aligned pc. -/
theorem inv_warm (on : Bool) (prog : List Entry) (p : Word) (hp : uint p % 4 = 0) : Inv (setPc (warm on prog) p) :=
  inv_of_running (by change small.wf = true; decide) (by simp [warm, State.resetWith, small]) hp (by simp [warm, State.resetWith, small])
    (by change ∀ l ∈ ([⟨true, true, 1, [0xAA#32, 0xBB#32]⟩, ⟨true, false, 0, [7#32, 0#32]⟩] : List CacheLine),
          l.wf small = true; decide)
    (by change cellsWf [(2, 7#32), (4, 1#32), (8, 3#32)] = true; decide)
    (by change (Memory.mk [(2, 7#32), (4, 1#32), (8, 3#32)]).inRange small = true; decide) rfl

theorem inv_warm0 (on : Bool) (prog : List Entry) : Inv (warm on prog) := inv_warm on prog 0#32 rfl

theorem inv_cold (prog : List Entry) (p : Word) (hp : uint p % 4 = 0) : Inv (setPc (cold prog) p) :=
  inv_of_running (by change small.wf = true; decide) (by simp [cold, State.resetWith, small]) hp (by simp [cold, State.resetWith, small])
    (by change ∀ l ∈ List.replicate 2 (CacheLine.reset small), l.wf small = true; decide) rfl rfl rfl

/-- Line 1 of a warm state equals the MemoryBus words of its block; line 0 is dirty. -/
theorem cleanLinesMatch_warm (on : Bool) (prog : List Entry) : CleanLinesMatch (warm on prog) := by
  intro i o hi ho _ hd
  change i < 2 at hi
  change o < 2 at ho
  interval_cases i <;> interval_cases o
  · exact absurd hd (by change (true : Bool) ≠ false; decide)
  · exact absurd hd (by change (true : Bool) ≠ false; decide)
  · change 7#32 = readCells [(2, 7#32), (4, 1#32), (8, 3#32)] (baseWord small 0 1 + 0); decide
  · change 0#32 = readCells [(2, 7#32), (4, 1#32), (8, 3#32)] (baseWord small 0 1 + 1); decide

-- LoadLeavesTheResetValues, LoadMeetsTheInvariant: the extremes R132 admits are loaded
theorem witness_load : ∃ s, State.load small [.word 0#32] [(0, 4294967295), (15, -2147483648)] = some s := ⟨_, rfl⟩

-- StepKeepsTheInvariant, CacheOnIsTransparent: a store, a load, a flush and a raise, cache on
theorem witness_cache_on_steps :
    (Inv (warm true [.word 0xAC820000#32]) ∧ CleanLinesMatch (warm true [.word 0xAC820000#32]) ∧
      ∃ t, step (warm true [.word 0xAC820000#32]) = .next t ∧
        currentInstr (warm true [.word 0xAC820000#32]) = some (.sw 2 0 4)) ∧
    (∃ t, step (warm true [.word 0x8C860000#32]) = .next t ∧
        currentInstr (warm true [.word 0x8C860000#32]) = some (.lw 6 0 4)) ∧
    (∃ t, step (warm true [.word 0xBC000002#32]) = .next t) ∧ ∃ t, step (warm true []) = .next t :=
  ⟨⟨inv_warm0 _ _, cleanLinesMatch_warm _ _, _, rfl, by decide⟩, ⟨_, rfl, by decide⟩, ⟨_, rfl⟩, ⟨_, rfl⟩⟩

-- DecodeOfEncodeIsTheInstruction: operands at the ends of their ranges
theorem witness_well_formed : small.wf = true ∧ (Instr.add 7 0 7).wf small = true ∧ (Instr.addi 7 0 (-32768)).wf small = true ∧
    (Instr.sub 0 7 0).wf small = true ∧ (Instr.subi 7 7 32767).wf small = true ∧ (Instr.slt 7 7 7).wf small = true ∧
    (Instr.bne 0 7 (-32768)).wf small = true ∧ (Instr.j 67108863).wf small = true ∧ (Instr.jal 0).wf small = true ∧
    (Instr.lw 7 32767 7).wf small = true ∧ (Instr.sw 0 (-32768) 7).wf small = true ∧ (Instr.cache 2).wf small = true ∧
    Instr.nop.wf small = true ∧ Instr.halt.wf small = true := by decide

-- EncodeOfDecodeIsTheWord
theorem witness_decodes : decodeWord small 0x20278000#32 = .instr (.addi 7 1 (-32768)) := by decide

-- MatchAndMaskSelectTheRow: a match with every other bit set still selects the row, a neighbour does not
theorem witness_match : (selectRow 0x03FFFFEA#32).map OpRow.opcode = some .slt ∧ selectRow 0x03FFFFEB#32 = none := by decide

-- UnassignedWordsAreUnknown, UndecodableEntriesRaise (unknown)
theorem witness_unknown : (cold [.word 0x00000001#32]).status = .running ∧ (cold [.word 0x00000001#32]).cfg.wf = true ∧
    (cold [.word 0x00000001#32]).imem[uint (cold [.word 0x00000001#32]).pc / 4]? = some (.word 0x00000001#32) ∧
    decodeWord small 0x00000001#32 = .unknown ∧ decodeWord small 0xF8000000#32 = .unknown := by decide

-- MalformedWordsRaiseDecodeError, UndecodableEntriesRaise (malformed): one word for each kind of malformation
theorem witness_malformed : (cold [.word 0xBC000003#32]).status = .running ∧ (cold [.word 0xBC000003#32]).cfg.wf = true ∧
    (cold [.word 0xBC000003#32]).imem[uint (cold [.word 0xBC000003#32]).pc / 4]? = some (.word 0xBC000003#32) ∧
    decodeWord small 0xBC000003#32 = .malformed .cache ∧ decodeWord small 0x00221860#32 = .malformed .add ∧
    decodeWord small 0x00010000#32 = .malformed .nop ∧ decodeWord small 0x00281820#32 = .malformed .add ∧
    decodeWord small 0x21010000#32 = .malformed .addi ∧ decodeWord small 0xBC010000#32 = .malformed .cache ∧
    decodeWord small 0xFC000001#32 = .malformed .halt := by decide

-- RecordsDecodeToTheirInstructions: a known record that is no instruction's
theorem witness_record : ∀ i, decodeRecord small ⟨.known .add, [.reg 1, .reg 2, .reg 8]⟩ ≠ .instr i := by
  have h : decodeRecord small ⟨.known .add, [.reg 1, .reg 2, .reg 8]⟩ = .malformed .add := by decide
  intro i
  rw [h]
  exact Decoded.noConfusion

-- RecordsAndWordsRunAlike
theorem witness_program : small.wf = true ∧ ∀ i ∈ [Instr.addi 1 0 5, .sw 1 0 0, .halt], i.wf small = true := by decide

-- StepRunsTheDecodedInstruction, PlacedWordIsTheNextInstruction
theorem witness_step : (warm true [.word 0x8C860000#32]).imem[uint (warm true [.word 0x8C860000#32]).pc / 4]? =
      some (.word 0x8C860000#32) ∧ decodeEntry small (.word 0x8C860000#32) = .instr (.lw 6 0 4) ∧
    decodeWord small (BitVec.ofNat 32 (0x8C860000 % 2 ^ 32)) = .instr (.lw 6 0 4) := by decide

/-- A cold state whose end of program halts. -/
def coldEnd (prog : List Entry) : State := State.resetWith { small with implicitHalt := true } prog Memory.zero

-- FetchPastTheEndIsChecked: exactly at the end with IMPLICIT_HALT, and without it; one entry beyond
theorem witness_end : Inv (coldEnd []) ∧ (coldEnd []).status = .running ∧ 4 * (coldEnd []).imem.length ≤ uint (coldEnd []).pc ∧
    ((coldEnd []).cfg.implicitHalt = true ∧ uint (coldEnd []).pc = 4 * (coldEnd []).imem.length) ∧
    ¬ (uint (setPc (coldEnd []) 4#32).pc = 4 * (setPc (coldEnd []) 4#32).imem.length) ∧
    Inv (setPc (cold []) 0#32) ∧ ¬ ((cold []).cfg.implicitHalt = true) :=
  ⟨inv_of_running (by decide) rfl rfl rfl
    (by change ∀ l ∈ List.replicate 2 (CacheLine.reset { small with implicitHalt := true }), l.wf _ = true; decide)
    rfl rfl rfl, rfl, by decide, ⟨rfl, rfl⟩, by decide, inv_cold [] 0#32 rfl, by decide⟩

-- ErrorsArePrecise, ErrorKindFollowsTheCheckOrder: one failing step for each check
theorem witness_errors :
    (Inv (cold []) ∧ ∃ t r, step (cold []) = .next t ∧ t.status = .error r) ∧
    (∃ t r, step (cold [.word 0x00000001#32]) = .next t ∧ t.status = .error r) ∧
    (∃ t r, step (cold [.word 0xBC000003#32]) = .next t ∧ t.status = .error r) ∧
    (∃ t r, step (cold [.word 0x8C050003#32]) = .next t ∧ t.status = .error r) :=
  ⟨⟨inv_cold [] 0#32 rfl, _, _, rfl, rfl⟩, ⟨_, _, rfl, rfl⟩, ⟨_, _, rfl, rfl⟩, ⟨_, _, rfl, rfl⟩⟩

-- PassingTheChecksCompletes: a valid address at the top of the space
theorem witness_passing : Inv (warm true [.word 0x8C86001C#32]) ∧
    currentInstr (warm true [.word 0x8C86001C#32]) = some (.lw 6 28 4) ∧
    validAddr small (sint (readReg (warm true [.word 0x8C86001C#32]) 4) + 28) = true :=
  ⟨inv_warm0 _ _, by decide, by decide⟩

-- TerminalStatesAreFinal
theorem witness_terminal : (setHalted (warm true [])).status ≠ .running ∧
    (raiseError .decodeError (warm true [])).status ≠ .running := ⟨by decide, fun h => Status.noConfusion h⟩

-- StepKeepsProgramAndConfiguration, OnlyCacheSwitchesTheMode: both switches change the mode
theorem witness_switch :
    (∃ t, step (warm false [.word 0xBC000001#32]) = .next t ∧ t.cacheOn ≠ (warm false [.word 0xBC000001#32]).cacheOn) ∧
    (∃ t, step (warm true [.word 0xBC000000#32]) = .next t ∧ t.cacheOn ≠ (warm true [.word 0xBC000000#32]).cacheOn) :=
  ⟨⟨_, rfl, by decide⟩, ⟨_, rfl, by decide⟩⟩

-- OnlyTheDestinationChanges: an ADD and a JAL change a register
theorem witness_register_changes :
    (∃ t, step (warm false [.word 0x00221820#32]) = .next t ∧ readReg t 3 ≠ readReg (warm false [.word 0x00221820#32]) 3) ∧
    (∃ t, step (warm false [.word 0x0C00000A#32]) = .next t ∧ readReg t 7 ≠ readReg (warm false [.word 0x0C00000A#32]) 7) :=
  ⟨⟨_, rfl, by decide⟩, ⟨_, rfl, by decide⟩⟩

-- HaltedOnlyByHaltOrTheEnd: both ways, with the cache on and off
theorem witness_halted :
    (Inv (warm true [.word 0xFC000000#32]) ∧ ∃ t, step (warm true [.word 0xFC000000#32]) = .next t ∧ t.status = .halted) ∧
    (∃ t, step (coldEnd []) = .next t ∧ t.status = .halted) :=
  ⟨⟨inv_warm0 _ _, _, rfl, by decide⟩, ⟨_, rfl, by decide⟩⟩

-- PcAfterEachInstruction: a taken and an untaken BNE, a J, a HALT
theorem witness_pc :
    (∃ t, step (warm false [.word 0x1422FFFE#32]) = .next t ∧ SafeStatus t ∧
      currentInstr (warm false [.word 0x1422FFFE#32]) = some (.bne 1 2 (-2)) ∧ t.pc = 0xFFFFFFFC#32) ∧
    (∃ t, step (warm false [.word 0x1421FFFE#32]) = .next t ∧ SafeStatus t ∧ t.pc = 4#32) ∧
    (∃ t, step (warm false [.word 0x0BFFFFFF#32]) = .next t ∧ SafeStatus t ∧ t.pc = 0x0FFFFFFC#32) ∧
    (∃ t, step (warm false [.word 0xFC000000#32]) = .next t ∧ SafeStatus t ∧ t.pc = 0#32) :=
  ⟨⟨_, rfl, .inl rfl, by decide, by decide⟩, ⟨_, rfl, .inl rfl, by decide⟩, ⟨_, rfl, .inl rfl, by decide⟩,
    ⟨_, rfl, .inr rfl, by decide⟩⟩

-- BusWordsChangeOnlyByStoreOrFlush: a store to word 8, and CACHE 2 writing word 5
theorem witness_bus_words :
    (Inv (warm false [.word 0xAC820000#32]) ∧ ∃ t, step (warm false [.word 0xAC820000#32]) = .next t ∧
      t.mem.read 8 ≠ (warm false [.word 0xAC820000#32]).mem.read 8) ∧
    (∃ t, step (warm false [.word 0xBC000002#32]) = .next t ∧
      t.mem.read 5 ≠ (warm false [.word 0xBC000002#32]).mem.read 5) :=
  ⟨⟨inv_warm0 _ _, _, rfl, by decide⟩, ⟨_, rfl, by decide⟩⟩

-- RegisterZeroFollowsItsParameter: both readings of R17
theorem witness_register_zero : Inv (warm true []) ∧ (warm true []).cfg.r0Hardwired = false ∧
    (State.resetWith { small with r0Hardwired := true } [] Memory.zero).cfg.r0Hardwired = true ∧
    Inv (State.resetWith { small with r0Hardwired := true } [] Memory.zero) :=
  ⟨inv_warm0 _ _, rfl, rfl, inv_of_running (by decide) rfl rfl rfl
    (by change ∀ l ∈ List.replicate 2 (CacheLine.reset { small with r0Hardwired := true }), l.wf _ = true; decide)
    rfl rfl rfl⟩

-- AddWritesTheWrappedSum to SltWritesTheSignedCompare, destination 0 among them
theorem witness_arithmetic : Inv (warm true []) ∧ (Instr.add 0 1 3).wf (warm true []).cfg = true ∧
    (Instr.addi 0 3 (-32768)).wf (warm true []).cfg = true ∧ (Instr.sub 3 3 1).wf (warm true []).cfg = true ∧
    (Instr.subi 7 3 32767).wf (warm true []).cfg = true ∧ (Instr.slt 3 3 1).wf (warm true []).cfg = true :=
  ⟨inv_warm0 _ _, by decide, by decide, by decide, by decide, by decide⟩

-- BneBranchesWhenTheRegistersDiffer, JumpSetsThePc, JumpAndLinkWritesRegisterSeven: registers that differ, and equal
-- ones; a target past the end, so that the next fetch is out of range
theorem witness_control : Inv (warm true []) ∧ (Instr.bne 1 2 (-2)).wf (warm true []).cfg = true ∧
    readReg (warm true []) 1 ≠ readReg (warm true []) 2 ∧ readReg (warm true []) 0 = readReg (warm true []) 6 ∧
    (Instr.j 67108863).wf (warm true []).cfg = true ∧ (Instr.jal 67108863).wf (warm true []).cfg = true :=
  ⟨inv_warm0 _ _, by decide, by decide, by decide, by decide, by decide⟩

theorem witness_control_end : ∃ t, exec (.j 67108863) (warm true []) = .next t ∧ t.status = .running ∧
    4 * t.imem.length ≤ uint t.pc := ⟨_, rfl, rfl, by decide⟩

/-- The hypotheses of the load and store statements, at an effective address. -/
def accessOk (s : State) (i : Instr) (rs : Nat) (offset : Int) (on : Bool) : Bool :=
  i.wf s.cfg && (s.cacheOn == on) && ((sint (readReg s rs) + offset) % 4 == 0) &&
  decide (0 ≤ sint (readReg s rs) + offset) && decide (sint (readReg s rs) + offset < s.cfg.capacity)

-- LwWithTheCacheOff, SwWithTheCacheOff: the first and the last word; LwThroughTheCache, SwThroughTheCache: a hit on a
-- dirty line, a hit on a clean line, a miss on a dirty line, a miss on a clean line
theorem witness_accesses : (∀ on prog, Inv (warm on prog)) ∧
    accessOk (warm false []) (.lw 6 0 6) 6 0 false = true ∧ accessOk (warm false []) (.lw 6 28 4) 4 28 false = true ∧
    accessOk (warm false []) (.sw 2 0 6) 6 0 false = true ∧ accessOk (warm false []) (.sw 2 28 4) 4 28 false = true ∧
    accessOk (warm true []) (.lw 6 0 1) 1 0 true = true ∧ hits (warm true []) 16 = true ∧
    accessOk (warm true []) (.sw 2 0 5) 5 0 true = true ∧ hits (warm true []) 8 = true ∧
    accessOk (warm true []) (.lw 6 0 4) 4 0 true = true ∧ hits (warm true []) 32 = false ∧
    accessOk (warm true []) (.sw 2 12 4) 4 12 true = true ∧ hits (warm true []) 44 = false :=
  ⟨inv_warm0, by decide, by decide, by decide, by decide, by decide, by decide, by decide, by decide, by decide, by decide,
    by decide, by decide⟩

-- InvalidAddressRaisesAddressError: misaligned; just below 0; exactly CAPACITY
theorem witness_invalid_address : (sint (readReg (warm true []) 4) + 30) % 4 ≠ 0 ∧
    sint (readReg (warm true []) 0) + (-4) < 0 ∧ (small.capacity : Int) ≤ sint (readReg (warm true []) 4) + 32 := by decide

-- CacheCodesSwitchTheMode, CacheTwoFlushesOnce, HaltFlushesAndStops, NopOnlyAdvancesThePc
theorem witness_system : Inv (warm true []) ∧ Inv (warm false []) ∧
    (0x00010000#32 : Word).extractLsb' 26 6 = 0#6 ∧ (0x00010000#32 : Word).extractLsb' 0 6 = 0#6 :=
  ⟨inv_warm0 _ _, inv_warm0 _ _, by decide, by decide⟩

-- AddressFieldsReassemble: the first and the last word
theorem witness_addresses : validAddr small 0 = true ∧ validAddr small 60 = true ∧ validAddr small 64 = false := by decide

-- FlushIsIdempotent, FlushedMemoryIsWhatLoadsSaw: a flush that writes
theorem witness_flush : Inv (warm true []) ∧ CleanLinesMatch (warm true []) ∧
    ∃ t, cacheFlush (warm true []) = some t ∧ t.mem ≠ (warm true []).mem :=
  ⟨inv_warm0 _ _, cleanLinesMatch_warm _ _, _, rfl, by decide⟩

-- SwitchedModesHideAStore: a store with the cache off to a word the dirty line holds
theorem witness_switched : Inv (warm false []) ∧ (Instr.sw 2 0 1).wf small = true ∧ 6 < small.numRegs ∧
    validAddr small (sint (readReg (warm false []) 1) + 0) = true ∧
    hits (warm false []) (sint (readReg (warm false []) 1) + 0) = true ∧
    (lineAt (warm false []) (indexOf small (sint (readReg (warm false []) 1) + 0))).dirty = true :=
  ⟨inv_warm0 _ _, by decide, by decide, by decide, by decide, by decide⟩

/-- A cold state whose invalid line 1 has another tag and other data. -/
def stale (prog : List Entry) : State := setLine (cold prog) 1 ⟨false, false, 3, [5#32, 6#32]⟩

-- InvalidLinesAreNeverRead: two states that differ in an invalid line
theorem witness_invalid_lines : Inv (cold [.word 0x8C010008#32]) ∧ Inv (stale [.word 0x8C010008#32]) ∧
    ObservablyEqual (cold [.word 0x8C010008#32]) (stale [.word 0x8C010008#32]) ∧
    cold [.word 0x8C010008#32] ≠ stale [.word 0x8C010008#32] ∧
    ∃ t, step (cold [.word 0x8C010008#32]) = .next t := by
  refine ⟨inv_cold _ 0#32 rfl, inv_of_running (by decide) rfl rfl rfl
    (by change ∀ l ∈ [CacheLine.reset small, ⟨false, false, 3, [5#32, 6#32]⟩], l.wf small = true; decide) rfl rfl rfl,
    ⟨rfl, rfl, fun i => ?_⟩, by decide, ⟨_, rfl⟩⟩
  match i with
  | 0 => exact .inl rfl
  | 1 => exact .inr ⟨rfl, rfl, rfl, rfl⟩
  | _ + 2 => exact .inl rfl

-- CeilingStopsBetweenSteps: a run the ceiling stops, and one that ends before it
theorem witness_ceiling : (State.runCeiling 1 (cold [.word 0x20010005#32, .word 0xFC000000#32])).status = .running ∧
    (State.runCeiling 2 (cold [.word 0x20010005#32, .word 0xFC000000#32])).status ≠ .running := by decide

-- SnapshotsReportTheState: a state with an error record
theorem witness_snapshot : (raiseError .decodeError (warm true [])).errorReport ≠ none := fun h => by cases h

end Sys2Proof.Tests
end

/-! ### The load port: when the loader accepts (00_scope.md R8, 70_reset_and_hazards.md R127, R132) -/
section
namespace Sys2Proof.Machine

theorem imageEntryOk_iff {c : Config} {d : Nat × Int} :
    imageEntryOk c d = true ↔ d.1 < c.memWords ∧ -2147483648 ≤ d.2 ∧ d.2 < 4294967296 := by
  simp [imageEntryOk, and_assoc]

theorem imageOk_iff {c : Config} {image : List (Nat × Int)} :
    imageOk c image = true ↔
      (∀ w n, (w, n) ∈ image → w < c.memWords ∧ -2147483648 ≤ n ∧ n < 4294967296) ∧
      (image.map Prod.fst).Nodup := by
  simp only [imageOk, Bool.and_eq_true, List.all_eq_true, decide_eq_true_iff, imageEntryOk_iff, Prod.forall]

/-- What an accepting load answers, the accepting condition included. -/
theorem load_eq_some_iff {c : Config} {prog : List Entry} {image : List (Nat × Int)} {s : State} :
    State.load c prog image = some s ↔
      (c.wf = true ∧ imageOk c image = true) ∧
      State.resetWith c prog (Memory.initialize (image.map fun d => (d.1, word d.2))) = s := by
  simp only [State.load, Option.ite_none_right_eq_some, Option.some.injEq, Bool.and_eq_true]

/-- Settles O3: the loader's one guard, read as a proposition. -/
theorem loadAcceptsTheAdmissibleImages : Obligations.LoadAcceptsTheAdmissibleImages := by
  intro c prog image
  calc (∃ s, State.load c prog image = some s)
      ↔ c.wf = true ∧ imageOk c image = true := by
        simp only [load_eq_some_iff, exists_and_left, exists_eq', and_true]
    _ ↔ _ := and_congr_right' imageOk_iff

end Sys2Proof.Machine
end

/-! ### The invariant along a run (10_state.md R24, R30, R31, R35; 60_exceptions.md R116) -/
section
namespace Sys2Proof.Machine

variable {s t : State}

/-! #### Reset and load -/

/-- Reset meets the invariant whatever canonical MemoryBus it is given. -/
theorem inv_resetWith {c : Config} (hc : c.wf = true) (prog : List Entry) {m : Memory} (hm : m.wf = true)
    (hr : m.inRange c = true) : Inv (State.resetWith c prog m) where
  cfgWf := hc
  regsLength := List.length_replicate
  pcAligned := rfl
  linesCount := List.length_replicate
  linesWf l hl := by
    rw [List.eq_of_mem_replicate hl]
    exact CacheLine.wf_reset
  memWf := hm
  memInRange := hr
  errorPc _ h := by cases h

/-- Settles O1: the reset state is the reset of the default configuration over the zero MemoryBus. -/
theorem resetMeetsTheInvariant : Obligations.ResetMeetsTheInvariant :=
  inv_resetWith Config.default_wf [] Memory.wf_zero (Memory.inRange_zero _)

/-- An admissible image maps MemoryBus words only (R132). -/
theorem initialize_inRange {c : Config} {image : List (Nat × Int)} (hi : imageOk c image = true) :
    (Memory.initialize (image.map fun d => (d.1, word d.2))).inRange c = true := by
  obtain ⟨hok, -⟩ := imageOk_iff.1 hi
  refine foldl_write_inRange _ _ (Memory.inRange_zero c) fun d hd => ?_
  obtain ⟨⟨w, n⟩, hmem, rfl⟩ := List.mem_map.1 hd
  exact (hok w n hmem).1

/-- Settles O4: a load is a reset over the initialised MemoryBus. -/
theorem loadMeetsTheInvariant : Obligations.LoadMeetsTheInvariant := by
  intro c prog image s h
  obtain ⟨⟨hc, hi⟩, rfl⟩ := load_eq_some_iff.1 h
  exact inv_resetWith hc prog (initialize_wf _) (initialize_inRange hi)

@[simp] theorem readReg_resetWith (c : Config) (prog : List Entry) (m : Memory) (r : Nat) :
    readReg (State.resetWith c prog m) r = 0#32 := by
  simp only [readReg, State.resetWith, List.getD_eq_getElem?_getD, List.getElem?_replicate]
  split
  · rfl
  · split <;> rfl

@[simp] theorem lineData_resetWith (c : Config) (prog : List Entry) (m : Memory) (i o : Nat) :
    lineData (State.resetWith c prog m) i o = 0#32 := by
  simp only [lineData, lineAt_resetWith, CacheLine.reset, List.getD_eq_getElem?_getD, List.getElem?_replicate]
  split <;> rfl

/-- The indices of an image are those of its words. -/
theorem map_fst_imageWords (image : List (Nat × Int)) :
    (image.map fun d => (d.1, word d.2)).map Prod.fst = image.map Prod.fst := by
  simp only [List.map_map, Function.comp_def]

/-- Settles O2: the registers and lines are replicated zeros; the MemoryBus is what `initialize` leaves. -/
theorem loadLeavesTheResetValues : Obligations.LoadLeavesTheResetValues := by
  intro c prog image s h
  obtain ⟨⟨-, hi⟩, rfl⟩ := load_eq_some_iff.1 h
  obtain ⟨-, hnodup⟩ := imageOk_iff.1 hi
  rw [← map_fst_imageWords] at hnodup
  refine ⟨readReg_resetWith c prog _, List.length_replicate, rfl, rfl, rfl, List.length_replicate,
    fun i _ => ?_, fun w n hw => ?_, fun w hw => ?_, rfl, rfl⟩
  · rw [lineAt_resetWith]
    exact ⟨rfl, rfl, rfl, List.length_replicate, lineData_resetWith c prog _ i⟩
  · exact initialize_mapped hnodup (d := (w, word n)) (List.mem_map.2 ⟨(w, n), hw, rfl⟩)
  · refine initialize_unmapped _ fun hmem => ?_
    rw [map_fst_imageWords] at hmem
    obtain ⟨⟨w', n⟩, hin, rfl⟩ := List.mem_map.1 hmem
    exact hw n hin

/-! #### One step -/

/-- A word read leaves the invariant, whatever the mode. -/
theorem Inv.of_memRead (h : Inv s) {b : Int} {v : Word} (hr : memRead s b = some (v, t)) : Inv t := by
  cases hb : validAddr s.cfg b with
  | false => simp [memRead_invalid hb] at hr
  | true =>
    obtain ⟨v', t', he, ht⟩ := memRead_inv h hb
    rw [he] at hr
    cases hr
    exact ht

/-- A word write leaves the invariant, whatever the mode. -/
theorem Inv.of_memWrite (h : Inv s) {b : Int} {v : Word} (hw : memWrite s b v = some t) : Inv t := by
  cases hb : validAddr s.cfg b with
  | false => simp [memWrite_invalid hb] at hw
  | true =>
    obtain ⟨t', he, ht⟩ := memWrite_inv h hb v
    rw [he] at hw
    cases hw
    exact ht

theorem Inv.of_cacheFlush (h : Inv s) (hf : cacheFlush s = some t) : Inv t := by
  obtain ⟨m', he, hm, hr, -⟩ := cacheFlush_spec h
  rw [he] at hf
  cases hf
  exact h.flushedState hm hr

theorem Inv.of_flushIfOn (h : Inv s) (hf : flushIfOn s = some t) : Inv t := by
  obtain ⟨t', he, ht⟩ := flushIfOn_inv h
  rw [he] at hf
  cases hf
  exact ht

/-- A commit keeps the invariant where what it commits meets it. -/
theorem Inv.of_commit (h : Inv s) {α : Type} {r : Option α} {f : α → State}
    (hr : ∀ u, r = some u → Inv (f u)) (hc : commit s (r.map f) = .next t) : Inv t := by
  rcases commit_cases hc with hk | ⟨-, rfl⟩
  · obtain ⟨u, hu, rfl⟩ := Option.map_eq_some_iff.1 hk
    exact hr u hu
  · exact h.raiseError _

theorem CacheOnly.status_ne_error (h : CacheOnly s t) (hs : ∀ r, s.status ≠ .error r) :
    ∀ r, t.status ≠ .error r := by
  obtain ⟨m, ls, rfl⟩ := h
  exact hs

theorem Inv.haltedState (h : Inv s) : Inv (Machine.haltedState s) := by
  unfold Machine.haltedState
  split
  · exact h.setHalted.advancePc fun r hr => by cases hr
  · exact h.setHalted

/-- Every meaning keeps the invariant of a state without an error record. -/
theorem Inv.of_exec (h : Inv s) (hs : ∀ r, s.status ≠ .error r) {i : Instr} (he : exec i s = .next t) : Inv t := by
  cases i with
  | add rd rs rt => cases he; exact h.finishWith hs _ _
  | addi rt rs immd => cases he; exact h.finishWith hs _ _
  | sub rd rs rt => cases he; exact h.finishWith hs _ _
  | subi rd rs immd => cases he; exact h.finishWith hs _ _
  | slt rd rs rt => cases he; exact h.finishWith hs _ _
  | bne rs rt offset =>
    cases he
    split
    · exact h.setPc hs (branchTarget_aligned h.pcAligned offset)
    · exact h.advancePc hs
  | j target => cases he; exact h.setPc hs (jumpTarget_aligned target)
  | jal target => cases he; exact (h.writeReg _ _).setPc hs (jumpTarget_aligned target)
  | lw rt offset rs =>
    exact h.of_commit (fun p hp => (h.of_memRead hp).finishWith ((memRead_only hp).status_ne_error hs) _ _) he
  | sw rt offset rs =>
    exact h.of_commit (fun u hu => (h.of_memWrite hu).advancePc ((memWrite_only hu).status_ne_error hs)) he
  | cache code =>
    simp only [exec, execCache] at he
    split at he
    · cases he; exact (h.setEnabled false).advancePc hs
    split at he
    · cases he; exact (h.setEnabled true).advancePc hs
    split at he
    · exact h.of_commit (fun u hu => (h.of_cacheFlush hu).advancePc ((cacheFlush_only hu).status_ne_error hs)) he
    · cases he; exact h.raiseError _
  | nop => cases he; exact h.advancePc hs
  | halt => exact h.of_commit (fun u hu => (h.of_flushIfOn hu).haltedState) he

/-- Settles O5: an error, an implicit halt and every meaning keep the invariant. -/
theorem stepKeepsTheInvariant : Obligations.StepKeepsTheInvariant := by
  intro s t h hstep
  obtain ⟨hrun, -⟩ := step_next_running hstep
  rcases step_shape hstep with ⟨k, rfl⟩ | ⟨u, hu, rfl, -⟩ | ⟨i, -, he⟩
  · exact h.raiseError k
  · exact (h.of_flushIfOn hu).setHalted
  · exact h.of_exec (fun r hr => by rw [hrun] at hr; cases hr) he

end Sys2Proof.Machine
end

/-! ### What one step leaves unchanged, and where it leaves the pc (10_state.md R14, R20, R23, R24, R27, R32) -/
section
namespace Sys2Proof.Machine

variable {s t : State} {i : Instr}

/-- What no step can do, whatever it answers: change the configuration or the program; change the cache mode except
by CACHE 0 and CACHE 1; change a register other than the destination of the current instruction. -/
structure StepFrame (s t : State) : Prop where
  cfg     : t.cfg = s.cfg
  imem    : t.imem = s.imem
  cacheOn : t.cacheOn = s.cacheOn ∨ ∃ on : Bool, currentInstr s = some (.cache (if on then 1 else 0)) ∧ t.cacheOn = on
  regs    : ∀ r, readReg t r = readReg s r ∨ ∃ i, currentInstr s = some i ∧ destination i = some r

/-- An update that leaves configuration, program, cache mode and registers alone. -/
theorem StepFrame.of_eq (hc : t.cfg = s.cfg) (hi : t.imem = s.imem) (ho : t.cacheOn = s.cacheOn)
    (hr : t.regs = s.regs) : StepFrame s t :=
  ⟨hc, hi, .inl ho, fun r => .inl (readReg_congr hc hr r)⟩

theorem CacheOnly.stepFrame (h : CacheOnly s t) : StepFrame s t := by
  obtain ⟨m, ls, rfl⟩ := h
  exact .of_eq rfl rfl rfl rfl

/-- Status and pc are not in the frame. -/
theorem StepFrame.haltedState (h : StepFrame s t) : StepFrame s (Machine.haltedState t) := by
  unfold Machine.haltedState
  split <;> exact ⟨h.cfg, h.imem, h.cacheOn, h.regs⟩

theorem ExecShape.stepFrame (hi : currentInstr s = some i) (h : ExecShape i s t) : StepFrame s t := by
  cases h with
  | raised k => exact .of_eq rfl rfl rfl rfl
  | moved u p hu _ => exact ⟨hu.stepFrame.cfg, hu.stepFrame.imem, hu.stepFrame.cacheOn, hu.stepFrame.regs⟩
  | wrote u r v p hu hd =>
    refine ⟨hu.stepFrame.cfg, hu.stepFrame.imem, hu.stepFrame.cacheOn, fun r' => ?_⟩
    by_cases hr : r = r'
    · exact .inr ⟨i, hi, hr ▸ hd⟩
    · exact .inl ((readReg_writeReg_ne u hr v).trans (hu.readReg r'))
  | switched on hk => exact ⟨rfl, rfl, .inr ⟨on, hk ▸ hi, rfl⟩, fun _ => .inl rfl⟩
  | halted u hu _ => exact (flushIfOn_only hu).stepFrame.haltedState

/-- Every step keeps the frame. -/
theorem step_frame (h : step s = .next t) : StepFrame s t := by
  rcases step_shape h with ⟨k, rfl⟩ | ⟨u, hu, rfl, -⟩ | ⟨i, hi, he⟩
  · exact .of_eq rfl rfl rfl rfl
  · obtain ⟨hc, hm, ho, hr⟩ := (flushIfOn_only hu).stepFrame
    exact ⟨hc, hm, ho, hr⟩
  · exact (exec_shape he).stepFrame hi

/-- Settles O22, by the frame of a step. -/
theorem stepKeepsProgramAndConfiguration : Obligations.StepKeepsProgramAndConfiguration :=
  fun _ _ h => ⟨(step_frame h).cfg, (step_frame h).imem⟩

/-- Settles O23: of the two codes that switch, the one executed tells the mode it left. -/
theorem onlyCacheSwitchesTheMode : Obligations.OnlyCacheSwitchesTheMode := by
  intro s t h hne
  obtain ⟨on, hi, ho⟩ := (step_frame h).cacheOn.resolve_left hne
  cases on with
  | false => exact .inl ⟨hi, ho⟩
  | true => exact .inr ⟨hi, ho⟩

/-- Settles O24, by the frame of a step: a register that changed is not among those it keeps. -/
theorem onlyTheDestinationChanges : Obligations.OnlyTheDestinationChanges :=
  fun _ _ r h hne => ((step_frame h).regs r).resolve_left hne

/-! #### The pc -/

theorem step_of_running (hr : s.status = .running) (hc : s.cfg.wf = true) : step s = stepRunning s := by
  simp [step, hr, hc]

/-- A step that has a current instruction executes it. -/
theorem exec_of_step (h : step s = .next t) (hi : currentInstr s = some i) : exec i s = .next t := by
  obtain ⟨e, hf, hd⟩ := currentInstr_iff.1 hi
  obtain ⟨hr, hc⟩ := step_next_running h
  rw [step_of_running hr hc] at h
  simpa [stepRunning, runEntry, hf, hd] using h

theorem not_safeStatus_raiseError (k : ErrorKind) (s : State) : ¬ SafeStatus (raiseError k s) := by
  simp [SafeStatus]

/-- A commit that does not raise has committed what its accesses answered. -/
theorem commit_of_safe {α : Type} {r : Option α} {f : α → State} (hs : SafeStatus t)
    (hc : commit s (r.map f) = .next t) : ∃ u, r = some u ∧ f u = t := by
  rcases commit_cases hc with hk | ⟨-, rfl⟩
  · exact Option.map_eq_some_iff.1 hk
  · exact absurd hs (not_safeStatus_raiseError _ _)

theorem CacheOnly.nextPc_eq (h : CacheOnly s t) : nextPc t = s.pc + 4#32 := by
  obtain ⟨m, ls, rfl⟩ := h
  exact Machine.nextPc_eq s

theorem jumpTarget_eq (target : Nat) : jumpTarget target = BitVec.ofNat 32 (target * 4) :=
  BitVec.ofInt_natCast 32 (target * 4)

theorem haltedState_pc (s : State) : (haltedState s).pc = if s.cfg.haltAdvancesPc = true then s.pc + 4#32 else s.pc := by
  unfold haltedState
  split
  · exact nextPc_eq s
  · rfl

theorem execBne_pc {rs rt : Nat} {offset : Int} (h : exec (.bne rs rt offset) s = .next t) :
    t.pc = if readReg s rs = readReg s rt then s.pc + 4#32 else BitVec.ofInt 32 (uint s.pc + 4 + offset * 4) := by
  cases h
  by_cases hr : readReg s rs = readReg s rt
  · simp [registersDiffer, hr, nextPc_eq]
  · simp [registersDiffer, hr, branchTarget, instrBytes]

theorem execCache_pc {code : Int} (hs : SafeStatus t) (h : exec (.cache code) s = .next t) : t.pc = s.pc + 4#32 := by
  simp only [exec, execCache] at h
  split at h
  · cases h; exact nextPc_eq s
  split at h
  · cases h; exact nextPc_eq s
  split at h
  · obtain ⟨u, hu, rfl⟩ := commit_of_safe hs h
    exact (cacheFlush_only hu).nextPc_eq
  · cases h; exact absurd hs (not_safeStatus_raiseError _ _)

theorem execHalt_pc (hs : SafeStatus t) (h : exec .halt s = .next t) :
    t.pc = if s.cfg.haltAdvancesPc = true then s.pc + 4#32 else s.pc := by
  obtain ⟨u, hu, rfl⟩ := commit_of_safe hs h
  obtain ⟨m, ls, rfl⟩ := flushIfOn_only hu
  exact haltedState_pc _

/-- Settles O26, instruction by instruction. -/
theorem pcAfterEachInstruction : Obligations.PcAfterEachInstruction := by
  intro s t i hstep hi hs
  have h := exec_of_step hstep hi
  cases i with
  | add rd rs rt => cases h; exact nextPc_eq s
  | addi rt rs immd => cases h; exact nextPc_eq s
  | sub rd rs rt => cases h; exact nextPc_eq s
  | subi rd rs immd => cases h; exact nextPc_eq s
  | slt rd rs rt => cases h; exact nextPc_eq s
  | bne rs rt offset => exact execBne_pc h
  | j target => cases h; exact jumpTarget_eq target
  | jal target => cases h; exact jumpTarget_eq target
  | lw rt offset rs =>
    obtain ⟨p, hp, rfl⟩ := commit_of_safe hs h
    exact (memRead_only hp).nextPc_eq
  | sw rt offset rs =>
    obtain ⟨u, hu, rfl⟩ := commit_of_safe hs h
    exact (memWrite_only hu).nextPc_eq
  | cache code => exact execCache_pc hs h
  | nop => cases h; exact nextPc_eq s
  | halt => exact execHalt_pc hs h

end Sys2Proof.Machine
end

/-! ### Register 0 (10_state.md R17) -/
section
namespace Sys2Proof.Machine

variable {s : State}

/-- R17 with R0_HARDWIRED: register 0 reads 0 and a write to it is discarded. -/
theorem registerZero_of_hardwired (h : s.cfg.r0Hardwired = true) (v : Word) :
    readReg s 0 = 0#32 ∧ writeReg s 0 v = s := by
  have hd : discards s.cfg 0 = true := discards_iff.2 ⟨rfl, h⟩
  simp [readReg, writeReg, hd]

/-- R17 without R0_HARDWIRED: register 0 is a plain register. -/
theorem registerZero_of_plain (hi : Inv s) (h : s.cfg.r0Hardwired = false) (v : Word) :
    readReg (writeReg s 0 v) 0 = v := by
  have hlen : 0 < s.regs.length := by
    have := (Config.wf_iff.1 hi.cfgWf).1
    rw [hi.regsLength]; omega
  simp [readReg_writeReg_self s hlen, discards_iff, h]

/-- Settles O28, reading by reading. -/
theorem registerZeroFollowsItsParameter : Obligations.RegisterZeroFollowsItsParameter :=
  ⟨rfl, fun _ v hi => ⟨fun h => registerZero_of_hardwired h v, fun h => registerZero_of_plain hi h v⟩⟩

end Sys2Proof.Machine
end

/-! ### Invalid lines are never read (10_state.md R30): the machine run on two states that differ in them only -/
section
namespace Sys2Proof.Machine

variable {c : Config} {s s' : State}

/-! #### Lines no rule tells apart -/

theorem LinesAlike.refl (l : CacheLine) : LinesAlike l l := .inl rfl

theorem LinesAlike.eq_of_valid {l l' : CacheLine} (h : LinesAlike l l') (hv : l.valid = true) : l = l' := by
  rcases h with rfl | ⟨hf, -⟩
  · rfl
  · simp [hf] at hv

/-- An invalid line is not written back, whatever it holds. -/
theorem LinesAlike.writeBack_eq {l l' : CacheLine} (h : LinesAlike l l') (m : Memory) (i : Nat) :
    writeBack c m i l' = writeBack c m i l := by
  rcases h with rfl | ⟨hv, hv', -⟩
  · rfl
  · simp [writeBack, hv, hv']

theorem LinesAlike.cleaned {l l' : CacheLine} (h : LinesAlike l l') : LinesAlike l.cleaned l'.cleaned := by
  rcases h with rfl | ⟨hv, hv', hd, hd'⟩
  · exact .refl _
  · exact .inr (by simp [CacheLine.cleaned, hv, hv', hd, hd'])

theorem linesAlike_set {ls ls' : List CacheLine} (h : List.Forall₂ LinesAlike ls ls') {l l' : CacheLine}
    (hl : LinesAlike l l') (i : Nat) : List.Forall₂ LinesAlike (ls.set i l) (ls'.set i l') := by
  induction h generalizing i with
  | nil => exact .nil
  | cons hx hxs ih =>
    cases i with
    | zero => exact .cons hl hxs
    | succ i => exact .cons hx (ih i)

/-! #### States that differ in the lines only -/

/-- `s` with another cache line array. -/
def withLines (s : State) (ls : List CacheLine) : State := { s with lines := ls }

/-- Two states are observably equal exactly where one is the other with its lines replaced by alike ones. -/
theorem observablyEqual_iff :
    ObservablyEqual s s' ↔ ∃ ls, List.Forall₂ LinesAlike s.lines ls ∧ s' = withLines s ls := by
  constructor
  · rintro ⟨hrest, hcount, hlines⟩
    refine ⟨s'.lines, List.forall₂_of_length_eq_of_get hcount.symm fun i hi hi' => ?_, hrest⟩
    have := hlines i
    rwa [lineAt_eq hi, lineAt_eq hi'] at this
  · rintro ⟨ls, hls, rfl⟩
    refine ⟨rfl, hls.length_eq.symm, fun i => ?_⟩
    by_cases hi : i < s.lines.length
    · have hi' : i < (withLines s ls).lines.length := hls.length_eq ▸ hi
      rw [lineAt_eq hi, lineAt_eq hi']
      exact hls.get hi hi'
    · have hi' : ¬ i < ls.length := hls.length_eq ▸ hi
      exact .inl (by simp [lineAt, withLines, List.getD_eq_getElem?_getD, hi, hi'])

theorem ObservablyEqual.cfg (h : ObservablyEqual s s') : s'.cfg = s.cfg := by rw [h.rest]
theorem ObservablyEqual.mem (h : ObservablyEqual s s') : s'.mem = s.mem := by rw [h.rest]
theorem ObservablyEqual.cacheOn (h : ObservablyEqual s s') : s'.cacheOn = s.cacheOn := by rw [h.rest]
theorem ObservablyEqual.status (h : ObservablyEqual s s') : s'.status = s.status := by rw [h.rest]
theorem ObservablyEqual.readReg (h : ObservablyEqual s s') (r : Nat) : Machine.readReg s' r = Machine.readReg s r := by
  rw [h.rest]; rfl
theorem ObservablyEqual.effectiveAddress (h : ObservablyEqual s s') (rs : Nat) (offset : Int) :
    Machine.effectiveAddress s' rs offset = Machine.effectiveAddress s rs offset := by rw [h.rest]; rfl
theorem ObservablyEqual.fetch (h : ObservablyEqual s s') : Machine.fetch s' = Machine.fetch s := by rw [h.rest]; rfl

theorem ObservablyEqual.hits (h : ObservablyEqual s s') (b : Int) : Machine.hits s' b = Machine.hits s b := by
  unfold Machine.hits
  rw [h.cfg]
  rcases h.lines (indexOf s.cfg b) with he | ⟨hv, hv', -⟩
  · rw [he]
  · simp [hv, hv']

/-- The update neither reads nor writes a cache line. -/
def IgnoresLines (f : State → State) : Prop := ∀ s ls, f (withLines s ls) = withLines (f s) ls

theorem IgnoresLines.lines_eq {f : State → State} (hf : IgnoresLines f) (s : State) : (f s).lines = s.lines :=
  congrArg (·.lines) (hf s s.lines)

/-- A choice the lines do not decide, between two such updates. -/
theorem IgnoresLines.ite {p : State → Bool} {f g : State → State} (hp : ∀ s ls, p (withLines s ls) = p s)
    (hf : IgnoresLines f) (hg : IgnoresLines g) : IgnoresLines fun s => if p s then f s else g s := by
  intro s ls
  simp only [hp]
  split
  · exact hf s ls
  · exact hg s ls

theorem ignoresLines_haltedState : IgnoresLines haltedState :=
  IgnoresLines.ite (p := (·.cfg.haltAdvancesPc)) (fun _ _ => rfl) (fun _ _ => rfl) (fun _ _ => rfl)

theorem ObservablyEqual.map (h : ObservablyEqual s s') {f : State → State} (hf : IgnoresLines f) :
    ObservablyEqual (f s) (f s') := by
  obtain ⟨ls, hls, rfl⟩ := observablyEqual_iff.1 h
  exact observablyEqual_iff.2 ⟨ls, hf.lines_eq s ▸ hls, hf s ls⟩

theorem ObservablyEqual.setMem (h : ObservablyEqual s s') (m : Memory) :
    ObservablyEqual (Machine.setMem s m) (Machine.setMem s' m) := h.map (f := (Machine.setMem · m)) fun _ _ => rfl

theorem ObservablyEqual.setLine (h : ObservablyEqual s s') {l l' : CacheLine} (hl : LinesAlike l l') (i : Nat) :
    ObservablyEqual (Machine.setLine s i l) (Machine.setLine s' i l') := by
  obtain ⟨ls, hls, rfl⟩ := observablyEqual_iff.1 h
  exact observablyEqual_iff.2 ⟨ls.set i l', linesAlike_set hls hl i, rfl⟩

/-! #### The operations of the cache: each answers on observably equal states none twice, or alike answers -/

theorem optionRel_map {α β γ δ : Type} {R : α → β → Prop} {S : γ → δ → Prop} {f : α → γ} {g : β → δ}
    (hfg : ∀ a b, R a b → S (f a) (g b)) {x : Option α} {y : Option β} (h : Option.Rel R x y) :
    Option.Rel S (x.map f) (y.map g) := by
  cases h with
  | none => exact .none
  | some hab => exact .some (hfg _ _ hab)

theorem allocate_eq_bind (s : State) (i tag : Nat) :
    allocate s i tag = (writeBack s.cfg s.mem i (lineAt s i)).bind fun m =>
      (busLoadBlock s.cfg m (baseByte s.cfg tag i) s.cfg.blockSize).map fun d =>
        setLine (setMem s m) i { valid := true, dirty := false, tag := tag, data := d } := by
  unfold allocate
  cases writeBack s.cfg s.mem i (lineAt s i) with
  | none => rfl
  | some m =>
    simp only [Option.bind_some]
    cases busLoadBlock s.cfg m (baseByte s.cfg tag i) s.cfg.blockSize <;> rfl

theorem allocate_alike (h : ObservablyEqual s s') (i tag : Nat) :
    Option.Rel ObservablyEqual (allocate s i tag) (allocate s' i tag) := by
  rw [allocate_eq_bind, allocate_eq_bind, h.cfg, h.mem, (h.lines i).writeBack_eq]
  cases writeBack s.cfg s.mem i (lineAt s i) with
  | none => exact .none
  | some m =>
    simp only [Option.bind_some]
    cases busLoadBlock s.cfg m (baseByte s.cfg tag i) s.cfg.blockSize with
    | none => exact .none
    | some d => exact .some ((h.setMem m).setLine (.refl _) i)

theorem ensureLine_alike (h : ObservablyEqual s s') (b : Int) :
    Option.Rel ObservablyEqual (ensureLine s b) (ensureLine s' b) := by
  unfold ensureLine
  rw [h.cfg, h.hits b]
  split
  · exact .some h
  · exact allocate_alike h _ _

/-- At a valid address both states get the line of `b` present, and it is the same line, because it is valid. -/
theorem ensureLine_present (hi : Inv s) (h : ObservablyEqual s s') {b : Int} (hb : validAddr s.cfg b = true) :
    ∃ u u', ensureLine s b = some u ∧ ensureLine s' b = some u' ∧ u.cfg = s.cfg ∧ ObservablyEqual u u' ∧
      lineAt u' (indexOf s.cfg b) = lineAt u (indexOf s.cfg b) := by
  obtain ⟨m, l, he, -⟩ := ensureLine_inv hi hb
  have hrel := ensureLine_alike h b
  rw [he] at hrel
  generalize he' : ensureLine s' b = o' at hrel
  cases hrel with
  | some hu => exact ⟨_, _, he, rfl, rfl, hu, ((hu.lines _).eq_of_valid (ensureLine_valid hi hb he)).symm⟩

/-- Two answers of a read: the same word and observably equal states. -/
def ReadsAlike (p p' : Word × State) : Prop := p'.1 = p.1 ∧ ObservablyEqual p.2 p'.2

theorem cacheRead_alike (hi : Inv s) (h : ObservablyEqual s s') (b : Int) :
    Option.Rel ReadsAlike (cacheRead s b) (cacheRead s' b) := by
  cases hb : validAddr s.cfg b with
  | false =>
    rw [cacheRead_invalid hb, cacheRead_invalid (h.cfg ▸ hb)]
    exact .none
  | true =>
    obtain ⟨u, u', he, he', hc, hu, hline⟩ := ensureLine_present hi h hb
    rw [cacheRead_eq hb he, cacheRead_eq (h.cfg ▸ hb) he']
    refine .some ⟨?_, hu⟩
    simp only [lineWord, hu.cfg, hc, hline]

theorem cacheWrite_alike (hi : Inv s) (h : ObservablyEqual s s') (b : Int) (v : Word) :
    Option.Rel ObservablyEqual (cacheWrite s b v) (cacheWrite s' b v) := by
  cases hb : validAddr s.cfg b with
  | false =>
    rw [cacheWrite_invalid hb, cacheWrite_invalid (h.cfg ▸ hb)]
    exact .none
  | true =>
    obtain ⟨u, u', he, he', -, hu, hline⟩ := ensureLine_present hi h hb
    rw [cacheWrite_eq hb he, cacheWrite_eq (h.cfg ▸ hb) he', h.cfg, hline]
    exact .some (hu.setLine (.refl _) _)

theorem memRead_alike (hi : Inv s) (h : ObservablyEqual s s') (b : Int) :
    Option.Rel ReadsAlike (memRead s b) (memRead s' b) := by
  unfold memRead
  rw [h.cacheOn, h.cfg, h.mem]
  split
  · exact cacheRead_alike hi h b
  · cases busLoad s.cfg s.mem b with
    | none => exact .none
    | some v => exact .some ⟨rfl, h⟩

theorem memWrite_alike (hi : Inv s) (h : ObservablyEqual s s') (b : Int) (v : Word) :
    Option.Rel ObservablyEqual (memWrite s b v) (memWrite s' b v) := by
  unfold memWrite
  rw [h.cacheOn, h.cfg, h.mem]
  split
  · exact cacheWrite_alike hi h b v
  · cases busStore s.cfg s.mem b v with
    | none => exact .none
    | some m => exact .some (h.setMem m)

/-- Two answers of the flush loop: the same MemoryBus and alike lines. -/
def FlushesAlike (p p' : Memory × List CacheLine) : Prop := p'.1 = p.1 ∧ List.Forall₂ LinesAlike p.2 p'.2

theorem flushLines_cons (i : Nat) (l : CacheLine) (ls : List CacheLine) (m : Memory) :
    flushLines c i (l :: ls) m = (writeBack c m i l).bind fun m' =>
      (flushLines c (i + 1) ls m').map fun p => (p.1, l.cleaned :: p.2) := by
  rw [flushLines]
  cases writeBack c m i l with
  | none => rfl
  | some m' => cases hf : flushLines c (i + 1) ls m' <;> simp [hf]

theorem flushLines_alike {ls ls' : List CacheLine} (h : List.Forall₂ LinesAlike ls ls') (i : Nat) (m : Memory) :
    Option.Rel FlushesAlike (flushLines c i ls m) (flushLines c i ls' m) := by
  induction h generalizing i m with
  | nil => exact .some ⟨rfl, .nil⟩
  | @cons l l' ls ls' hl _ ih =>
    rw [flushLines_cons, flushLines_cons, hl.writeBack_eq]
    cases writeBack c m i l with
    | none => exact .none
    | some m' => exact optionRel_map (fun _ _ hp => ⟨hp.1, .cons hl.cleaned hp.2⟩) (ih (i + 1) m')

theorem cacheFlush_eq_map (s : State) :
    cacheFlush s = (flushLines s.cfg 0 s.lines s.mem).map fun p => withLines (setMem s p.1) p.2 := by
  unfold cacheFlush
  cases flushLines s.cfg 0 s.lines s.mem <;> rfl

theorem cacheFlush_alike (h : ObservablyEqual s s') : Option.Rel ObservablyEqual (cacheFlush s) (cacheFlush s') := by
  obtain ⟨ls, hls, rfl⟩ := observablyEqual_iff.1 h
  rw [cacheFlush_eq_map, cacheFlush_eq_map]
  refine optionRel_map (fun p p' hp => ?_) (flushLines_alike hls 0 s.mem)
  obtain ⟨hm, hlines⟩ := hp
  exact observablyEqual_iff.2 ⟨p'.2, hlines, by rw [hm]; rfl⟩

theorem flushIfOn_alike (h : ObservablyEqual s s') : Option.Rel ObservablyEqual (flushIfOn s) (flushIfOn s') := by
  unfold flushIfOn
  rw [h.cacheOn]
  split
  · exact cacheFlush_alike h
  · exact .some h

/-! #### Meanings and steps -/

/-- Where the first outcome is a next state, the second is one too, observably equal to it. -/
def NextAlike (o o' : Host.Outcome State Fault Refusal) : Prop :=
  ∀ t, o = .next t → ∃ t', o' = .next t' ∧ ObservablyEqual t t'

theorem ObservablyEqual.next (h : ObservablyEqual s s') : NextAlike (.next s) (.next s') := by
  rintro _ ⟨⟩
  exact ⟨s', rfl, h⟩

theorem ObservablyEqual.raiseError (h : ObservablyEqual s s') (k : ErrorKind) :
    NextAlike (.next (Machine.raiseError k s)) (.next (Machine.raiseError k s')) :=
  (h.map (f := Machine.raiseError k) fun _ _ => rfl).next

/-- A meaning that neither reads nor writes a line. -/
theorem ObservablyEqual.update (h : ObservablyEqual s s') {f : State → Host.Outcome State Fault Refusal}
    {g : State → State} (hf : ∀ s, f s = .next (g s)) (hg : IgnoresLines g) : NextAlike (f s) (f s') := by
  rw [hf, hf]
  exact (h.map hg).next

theorem ObservablyEqual.commit (h : ObservablyEqual s s') {r r' : Option State} (hr : Option.Rel ObservablyEqual r r') :
    NextAlike (Machine.commit s r) (Machine.commit s' r') := by
  cases hr with
  | none => exact h.raiseError _
  | some ht => exact ht.next

/-- A commit of an access and an update after it that neither reads nor writes a line. -/
theorem ObservablyEqual.commit_map (h : ObservablyEqual s s') {r r' : Option State}
    (hr : Option.Rel ObservablyEqual r r') {f : State → State} (hf : IgnoresLines f) :
    NextAlike (Machine.commit s (r.map f)) (Machine.commit s' (r'.map f)) :=
  h.commit (optionRel_map (fun _ _ hu => hu.map hf) hr)

theorem exec_alike (hi : Inv s) (h : ObservablyEqual s s') (i : Instr) : NextAlike (exec i s) (exec i s') := by
  cases i with
  | add rd rs rt => exact h.update (fun _ => rfl) (fun _ _ => rfl)
  | addi rt rs immd => exact h.update (fun _ => rfl) (fun _ _ => rfl)
  | sub rd rs rt => exact h.update (fun _ => rfl) (fun _ _ => rfl)
  | subi rd rs immd => exact h.update (fun _ => rfl) (fun _ _ => rfl)
  | slt rd rs rt => exact h.update (fun _ => rfl) (fun _ _ => rfl)
  | bne rs rt offset =>
    exact h.update (fun _ => rfl)
      (.ite (p := (registersDiffer · rs rt)) (fun _ _ => rfl) (fun _ _ => rfl) (fun _ _ => rfl))
  | j target => exact h.update (fun _ => rfl) (fun _ _ => rfl)
  | jal target => exact h.update (fun _ => rfl) (fun _ _ => rfl)
  | lw rt offset rs =>
    simp only [exec, execLw, h.effectiveAddress]
    refine h.commit (optionRel_map (fun p p' hp => ?_) (memRead_alike hi h _))
    obtain ⟨hv, hu⟩ := hp
    rw [hv]
    exact hu.map (f := (finishWith · rt p.1)) fun _ _ => rfl
  | sw rt offset rs =>
    simp only [exec, execSw, h.effectiveAddress, h.readReg]
    exact h.commit_map (memWrite_alike hi h _ _) fun _ _ => rfl
  | cache code =>
    simp only [exec, execCache]
    split
    · exact (h.map (f := fun s => advancePc (setEnabled s false)) fun _ _ => rfl).next
    split
    · exact (h.map (f := fun s => advancePc (setEnabled s true)) fun _ _ => rfl).next
    split
    · exact h.commit_map (cacheFlush_alike h) fun _ _ => rfl
    · exact h.raiseError _
  | nop => exact h.update (fun _ => rfl) (fun _ _ => rfl)
  | halt => exact h.commit_map (flushIfOn_alike h) ignoresLines_haltedState

theorem stepRunning_alike (hi : Inv s) (h : ObservablyEqual s s') : NextAlike (stepRunning s) (stepRunning s') := by
  unfold stepRunning
  rw [h.fetch]
  cases fetch s with
  | entry e =>
    simp only [runEntry, h.cfg]
    cases decodeEntry s.cfg e with
    | unknown => exact h.raiseError _
    | malformed o => exact h.raiseError _
    | instr i => exact exec_alike hi h i
  | implicitHalt => exact h.commit_map (flushIfOn_alike h) fun _ _ => rfl
  | outOfRange => exact h.raiseError _

/-- Settles O51: a hit needs a valid line, a write-back a dirty one, and a fill replaces the whole line; nothing else
looks at a line. -/
theorem invalidLinesAreNeverRead : Obligations.InvalidLinesAreNeverRead := by
  intro s s' t hi _ h hstep
  obtain ⟨hr, hc⟩ := step_next_running hstep
  rw [step_of_running hr hc] at hstep
  rw [step_of_running (h.status.trans hr) (h.cfg ▸ hc)]
  exact stepRunning_alike hi h t hstep

end Sys2Proof.Machine
end

/-! ### Memory through the cache while it is on (20_memory.md R46 to R48, R62 (b)) -/
section
namespace Sys2Proof.Machine

variable {s t u : State} {f : Nat → Word}

/-! #### Decoded operands and valid addresses -/

/-- A record of the right shape with well-typed fields spells a well-formed instruction (R68 to R70). -/
theorem buildInstr_wf {c : Config} {o : Opcode} {ops : List Operand} {i : Instr} (hb : buildInstr o ops = some i)
    (hw : operandsWf c o ops = true) : i.wf c = true := by
  simp only [operandsWf, Bool.and_eq_true] at hw
  obtain ⟨⟨-, hall⟩, hcode⟩ := hw
  unfold buildInstr at hb
  split at hb <;> cases hb
  case h_11 => exact hcode -- the CACHE arm, whose code R70 bounds
  all_goals
    simp only [List.all_cons, List.all_nil, Operand.wellTyped, Bool.and_eq_true] at hall
    simp [Instr.wf, hall]

/-- What an entry decodes to is well formed, at either level. -/
theorem decodeEntry_wf {c : Config} {e : Entry} {i : Instr} (h : decodeEntry c e = .instr i) : i.wf c = true := by
  cases e with
  | word w =>
    obtain ⟨-, -, -, -, -, hw⟩ := decodeWord_instr h
    exact hw
  | record r =>
    simp only [decodeEntry, decodeRecord] at h
    split at h
    · cases h
    split at h
    · next hb =>
      split at h
      · next hw => cases h; exact buildInstr_wf hb hw
      · cases h
    · cases h

theorem currentInstr_wf {i : Instr} (h : currentInstr s = some i) : i.wf s.cfg = true := by
  obtain ⟨e, -, hd⟩ := currentInstr_iff.1 h
  exact decodeEntry_wf hd

/-- A byte address is valid with word index `w` exactly when it is `4·w` and `w` is a MemoryBus word's (R36, R37). -/
theorem validAddr_wordIndex_iff {c : Config} (hc : c.wf = true) {b : Int} {w : Nat} :
    (validAddr c b = true ∧ wordIndex b = w) ↔ b = 4 * w ∧ w < c.memWords := by
  constructor
  · rintro ⟨hb, rfl⟩
    have := validAddr_elim hc hb
    omega
  · rintro ⟨rfl, hw⟩
    rw [show (4 * w : Int) = (w * 4 : Nat) by omega]
    exact ⟨validAddr_mul_four hc hw, wordIndex_mul_four w⟩

/-! #### A load and a store whose access is carried out -/

theorem exec_lw_of_memRead {rt rs : Nat} {offset : Int} {v : Word}
    (h : memRead s (effectiveAddress s rs offset) = some (v, u)) :
    exec (.lw rt offset rs) s = .next (finishWith u rt v) := by
  simp [exec, execLw, h, commit]

theorem exec_sw_of_memWrite {rt rs : Nat} {offset : Int}
    (h : memWrite s (effectiveAddress s rs offset) (readReg s rt) = some u) :
    exec (.sw rt offset rs) s = .next (advancePc u) := by
  simp [exec, execSw, h, commit]

/-- The word of a hit is the word a program sees. -/
theorem lineWord_of_hits {b : Int} (hc : s.cfg.wf = true) (hb : validAddr s.cfg b = true) (hh : hits s b = true) :
    lineWord s b = visibleWord s (wordIndex b) := by
  obtain ⟨hb4, -⟩ := validAddr_elim hc hb
  rw [visibleWord, ← hb4, if_pos hh]

/-- Once its line is present, an address hits. -/
theorem hits_of_ensureLine (h : Inv s) {b : Int} (hb : validAddr s.cfg b = true) (he : ensureLine s b = some u) :
    hits u b = true := by
  obtain ⟨u', he', -, -, -, -, hv, ht, -⟩ := ensureLine_effect h hb
  obtain rfl : u = u' := by rw [he] at he'; exact Option.some.inj he'
  simp [hits, (ensureLine_only he).fields.1, hv, ht]

/-! #### What a state shows to loads -/

/-- Clean lines of `t` equal the MemoryBus, and a load of word `w` through the cache returns `f w`. -/
structure Shows (t : State) (f : Nat → Word) : Prop where
  clean   : CleanLinesMatch t
  visible : ∀ w, visibleWord t w = f w

theorem Shows.self (hcl : CleanLinesMatch s) : Shows s (visibleWord s) := ⟨hcl, fun _ => rfl⟩

/-- What a state shows depends on the configuration, the lines and the MemoryBus only. -/
theorem Shows.congr (h : Shows u f) (hc : t.cfg = u.cfg) (hl : t.lines = u.lines) (hm : t.mem = u.mem) :
    Shows t f := by
  have hline : lineAt t = lineAt u := by funext i; simp only [lineAt, hl, hc]
  refine ⟨?_, fun w => (visibleWord_congr hc (by rw [hline]) (by rw [hm])).trans (h.visible w)⟩
  simpa only [CleanLinesMatch, lineData, hline, hc, hm] using h.clean

/-- A commit shows what the accesses left, or, where one raised AddressError, what the step began with. -/
theorem Shows.of_commit (h : Shows s f) {α : Type} {r : Option α} {g : α → State}
    (hr : ∀ a, r = some a → Shows (g a) f) (hc : commit s (r.map g) = .next t) : Shows t f := by
  rcases commit_cases hc with hk | ⟨-, rfl⟩
  · obtain ⟨a, ha, rfl⟩ := Option.map_eq_some_iff.1 hk
    exact hr a ha
  · exact h.congr rfl rfl rfl

/-- A read through the cache answers the word a program sees, and changes nothing it sees (R46, R47). -/
theorem cacheRead_shows (h : Inv s) (hcl : CleanLinesMatch s) {b : Int} (hb : validAddr s.cfg b = true) :
    ∃ u, cacheRead s b = some (visibleWord s (wordIndex b), u) ∧ Shows u (visibleWord s) := by
  obtain ⟨u, he, hu, -⟩ := ensureLine_effect h hb
  have hshow : Shows u (visibleWord s) := ⟨cleanLinesMatch_ensureLine h hcl hb he, visibleWord_ensureLine h hcl hb he⟩
  have hcfg : u.cfg = s.cfg := (ensureLine_only he).fields.1
  refine ⟨u, ?_, hshow⟩
  rw [cacheRead_eq hb he, lineWord_of_hits hu.cfgWf (hcfg ▸ hb) (hits_of_ensureLine h hb he), hshow.visible]

/-- A write through the cache changes what a program sees at its word and nowhere else (R46, R48). -/
theorem cacheWrite_shows (h : Inv s) (hcl : CleanLinesMatch s) {b : Int} (hb : validAddr s.cfg b = true) (v : Word) :
    ∃ u, cacheWrite s b v = some u ∧ Shows u (Function.update (visibleWord s) (wordIndex b) v) := by
  obtain ⟨u, he, hu, -⟩ := ensureLine_effect h hb
  have hcfg : u.cfg = s.cfg := (ensureLine_only he).fields.1
  refine ⟨_, cacheWrite_eq hb he v, ?_⟩
  rw [← hcfg] at hb ⊢
  refine ⟨cleanLinesMatch_written hu (cleanLinesMatch_ensureLine h hcl (hcfg ▸ hb) he) b _ v, fun w => ?_⟩
  rw [visibleWord_written hu hb (hits_of_ensureLine h (hcfg ▸ hb) he), Function.update_apply,
    visibleWord_ensureLine h hcl (hcfg ▸ hb) he]

theorem memRead_shows (h : Inv s) (hcl : CleanLinesMatch s) (ho : s.cacheOn = true) {b : Int} {p : Word × State}
    (hr : memRead s b = some p) : Shows p.2 (visibleWord s) := by
  cases hb : validAddr s.cfg b with
  | false => simp [memRead_invalid hb] at hr
  | true =>
    obtain ⟨u, he, hu⟩ := cacheRead_shows h hcl hb
    rw [memRead_on ho, he] at hr
    cases hr
    exact hu

theorem cacheFlush_shows (h : Inv s) (hcl : CleanLinesMatch s) (hf : cacheFlush s = some u) :
    Shows u (visibleWord s) := by
  obtain ⟨m', he, -, hv, hclean⟩ := cacheFlush_visible h hcl
  rw [he] at hf
  cases hf
  exact ⟨hclean, hv⟩

theorem flushIfOn_shows (h : Inv s) (hcl : CleanLinesMatch s) (hf : flushIfOn s = some u) :
    Shows u (visibleWord s) := by
  unfold flushIfOn at hf
  split at hf
  · exact cacheFlush_shows h hcl hf
  · cases hf; exact .self hcl

/-! #### What each instruction and each step make a state show -/

/-- What loads see after `i`: the stored register at the word of a SW to a valid address, all else as before. -/
def viewAfter (s : State) : Instr → Nat → Word
  | .sw rt offset rs =>
    if validAddr s.cfg (effectiveAddress s rs offset) then
      Function.update (visibleWord s) (wordIndex (effectiveAddress s rs offset)) (readReg s rt)
    else visibleWord s
  | _ => visibleWord s

theorem viewAfter_sw_self (hc : s.cfg.wf = true) {rt rs w : Nat} {offset : Int} (hw : w < s.cfg.memWords)
    (ha : effectiveAddress s rs offset = 4 * w) : viewAfter s (.sw rt offset rs) w = readReg s rt := by
  obtain ⟨hb, rfl⟩ := (validAddr_wordIndex_iff hc).2 ⟨ha, hw⟩
  simp [viewAfter, hb]

theorem viewAfter_other (hc : s.cfg.wf = true) {i : Instr} {w : Nat}
    (hi : ∀ rt offset rs, i = .sw rt offset rs → effectiveAddress s rs offset ≠ 4 * w) :
    viewAfter s i w = visibleWord s w := by
  cases i with
  | sw rt offset rs =>
    rw [viewAfter]
    split
    · next hb =>
      refine Function.update_of_ne (fun hw => hi rt offset rs rfl ?_) _ _
      exact ((validAddr_wordIndex_iff hc).1 ⟨hb, hw.symm⟩).1
    · rfl
  | _ => rfl

theorem execSw_shows (h : Inv s) (hcl : CleanLinesMatch s) (ho : s.cacheOn = true) {rt rs : Nat} {offset : Int}
    (he : exec (.sw rt offset rs) s = .next t) : Shows t (viewAfter s (.sw rt offset rs)) := by
  rw [viewAfter]
  cases hb : validAddr s.cfg (effectiveAddress s rs offset) with
  | false =>
    simp only [exec, execSw, memWrite_invalid hb, Option.map_none, commit] at he
    cases he
    exact (Shows.self hcl).congr rfl rfl rfl
  | true =>
    obtain ⟨u, hw, hu⟩ := cacheWrite_shows h hcl hb (readReg s rt)
    rw [exec_sw_of_memWrite ((memWrite_on ho _ _).trans hw)] at he
    cases he
    exact hu.congr rfl rfl rfl

theorem execCache_shows (h : Inv s) (hcl : CleanLinesMatch s) {code : Int} (he : exec (.cache code) s = .next t) :
    Shows t (visibleWord s) := by
  simp only [exec, execCache] at he
  split at he
  · cases he; exact (Shows.self hcl).congr rfl rfl rfl
  split at he
  · cases he; exact (Shows.self hcl).congr rfl rfl rfl
  split at he
  · refine (Shows.self hcl).of_commit (fun u hu => ?_) he
    exact (cacheFlush_shows h hcl hu).congr rfl rfl rfl
  · cases he; exact (Shows.self hcl).congr rfl rfl rfl

/-- With the cache on, an instruction changes what loads see by its store alone. -/
theorem exec_shows (h : Inv s) (hcl : CleanLinesMatch s) (ho : s.cacheOn = true) {i : Instr}
    (he : exec i s = .next t) : Shows t (viewAfter s i) := by
  have hself : Shows s (visibleWord s) := .self hcl
  cases i with
  | bne rs rt offset => cases he; split <;> exact hself.congr rfl rfl rfl
  | lw rt offset rs =>
    refine hself.of_commit (fun p hp => ?_) he
    exact (memRead_shows h hcl ho hp).congr rfl rfl rfl
  | sw rt offset rs => exact execSw_shows h hcl ho he
  | cache code => exact execCache_shows h hcl he
  | halt =>
    refine hself.of_commit (fun u hu => ?_) he
    obtain ⟨-, hc, -, -, hl, hm, -⟩ := haltedState_fields u
    exact (flushIfOn_shows h hcl hu).congr hc hl hm
  | _ => cases he; exact hself.congr rfl rfl rfl

/-- With the cache on, a step changes what loads see as its instruction does, where it executes one. -/
theorem step_shows (h : Inv s) (hcl : CleanLinesMatch s) (ho : s.cacheOn = true) (hstep : step s = .next t) :
    Shows t (visibleWord s) ∨ ∃ i, currentInstr s = some i ∧ Shows t (viewAfter s i) := by
  rcases step_shape hstep with ⟨k, rfl⟩ | ⟨u, hu, rfl, -⟩ | ⟨i, hi, he⟩
  · exact .inl ((Shows.self hcl).congr rfl rfl rfl)
  · exact .inl ((flushIfOn_shows h hcl hu).congr rfl rfl rfl)
  · exact .inr ⟨i, hi, exec_shows h hcl ho he⟩

/-- With the cache on, a LW of a valid address writes the word a program sees (R47, R100). -/
theorem execLw_writes_visible (h : Inv s) (hcl : CleanLinesMatch s) (ho : s.cacheOn = true) {rt rs : Nat}
    {offset : Int} (hrt : rt < s.cfg.numRegs) (hb : validAddr s.cfg (effectiveAddress s rs offset) = true)
    (he : exec (.lw rt offset rs) s = .next t) :
    RegWritten t rt (visibleWord s (wordIndex (effectiveAddress s rs offset))) := by
  obtain ⟨u, hr, -⟩ := cacheRead_shows h hcl hb
  have hlen : rt < u.regs.length := by
    rw [(cacheRead_only hr).fields.2.2.1, h.regsLength]; exact hrt
  rw [exec_lw_of_memRead ((memRead_on ho _).trans hr)] at he
  cases he
  exact regWritten_finishWith u hlen _

/-- Settles O49: a step shows the view its instruction leaves, and a LW writes a word of the view before it. -/
theorem cacheOnIsTransparent : Obligations.CacheOnIsTransparent := by
  intro s t h hcl ho hstep
  refine ⟨?_, fun w _ hw => ?_, fun rt offset rs w hi hw ha => ?_, fun rt offset rs w hi hw ha => ?_⟩
  · rcases step_shows h hcl ho hstep with hs | ⟨i, -, hs⟩ <;> exact hs.clean
  · rcases step_shows h hcl ho hstep with hs | ⟨i, hi, hs⟩
    · exact hs.visible w
    · refine (hs.visible w).trans (viewAfter_other h.cfgWf ?_)
      rintro rt offset rs rfl
      exact hw rt offset rs hi
  · exact ((exec_shows h hcl ho (exec_of_step hstep hi)).visible w).trans (viewAfter_sw_self h.cfgWf hw ha)
  · have hwf := currentInstr_wf hi
    simp only [Instr.wf, Bool.and_eq_true, regInRange_iff] at hwf
    obtain ⟨⟨hrt, -⟩, -⟩ := hwf
    obtain ⟨hb, rfl⟩ := (validAddr_wordIndex_iff h.cfgWf).2 ⟨ha, hw⟩
    exact execLw_writes_visible h hcl ho hrt hb (exec_of_step hstep hi)

end Sys2Proof.Machine
end

/-! ### Flushing (20_memory.md R50, R51, R53) -/
section
namespace Sys2Proof.Machine

variable {c : Config} {s t : State}

/-- What a write-back applies to: a valid dirty line. -/
def CacheLine.due (l : CacheLine) : Bool := l.valid && l.dirty

theorem CacheLine.cleaned_of_not_due {l : CacheLine} (h : l.due = false) : l.cleaned = l := by
  unfold CacheLine.cleaned
  rw [if_neg]
  simpa [CacheLine.due] using h

theorem CacheLine.due_cleaned (l : CacheLine) : l.cleaned.due = false := by
  unfold CacheLine.cleaned
  split
  · simp [CacheLine.due]
  · next h => simpa [CacheLine.due] using h

theorem writeBack_of_not_due {l : CacheLine} (h : l.due = false) (m : Memory) (i : Nat) :
    writeBack c m i l = some m := by
  unfold writeBack
  rw [if_neg]
  simpa [CacheLine.due] using h

/-- The flush loop over lines none of which is due changes nothing. -/
theorem flushLines_of_not_due : ∀ (ls : List CacheLine) (i : Nat) (m : Memory), (∀ l ∈ ls, l.due = false) →
    flushLines c i ls m = some (m, ls)
  | [], _, _, _ => rfl
  | l :: ls, i, m, h => by
    have hl : l.due = false := h l List.mem_cons_self
    have ih := flushLines_of_not_due ls (i + 1) m fun l' hl' => h l' (List.mem_cons_of_mem _ hl')
    simp only [flushLines, writeBack_of_not_due hl, ih, CacheLine.cleaned_of_not_due hl]

theorem cacheFlush_of_not_due (h : ∀ l ∈ s.lines, l.due = false) : cacheFlush s = some s := by
  simp only [cacheFlush, flushLines_of_not_due s.lines 0 s.mem h]

/-- Settles O47: the first flush leaves every line cleaned, so the second finds no line due. -/
theorem flushIsIdempotent : Obligations.FlushIsIdempotent := by
  intro s t h hf
  obtain ⟨m', he, -⟩ := cacheFlush_spec h
  obtain rfl : flushedState s m' = t := by rw [he] at hf; exact Option.some.inj hf
  refine cacheFlush_of_not_due fun l hl => ?_
  obtain ⟨l', -, rfl⟩ := List.mem_map.1 hl
  exact l'.due_cleaned

/-- Settles O48, by what a flush makes of the MemoryBus. -/
theorem flushedMemoryIsWhatLoadsSaw : Obligations.FlushedMemoryIsWhatLoadsSaw := by
  intro s h hcl
  obtain ⟨m', he, hread, -⟩ := cacheFlush_visible h hcl
  exact ⟨flushedState s m', he, fun w _ => hread w⟩

end Sys2Proof.Machine
end

/-! ### Address fields (20_memory.md R43, R44) -/
section
namespace Sys2Proof.Machine

/-- Settles O46: the fields rebuild the word index, of which a valid address is four times. -/
theorem addressFieldsReassemble : Obligations.AddressFieldsReassemble := by
  intro c b hc h4 h0 hlt
  have hb : validAddr c b = true := validAddr_iff.2 ⟨h4, h0, hlt⟩
  refine ⟨?_, tagOf_lt hc hb, indexOf_lt hc b, offsetOf_lt hc b⟩
  obtain ⟨hb4, -⟩ := validAddr_elim hc hb
  have hw := wordIndex_eq hc b
  rw [baseByte]
  omega

end Sys2Proof.Machine
end

/-! ### Memory with the cache off, and after a mode switch (20_memory.md R42, R52, R55, R60, R63) -/
section
namespace Sys2Proof.Machine

variable {s t u : State}

/-! #### Which MemoryBus words a step changes -/

/-- What an instruction can do to the MemoryBus with the cache off: nothing, the store of a SW to a valid address, or
the flush of CACHE 2. -/
inductive BusEffect (s : State) (m : Memory) : Instr → Prop where
  | none (i : Instr) : m = s.mem → BusEffect s m i
  | store (rt rs : Nat) (offset : Int) : validAddr s.cfg (effectiveAddress s rs offset) = true →
      m = s.mem.write (wordIndex (effectiveAddress s rs offset)) (readReg s rt) → BusEffect s m (.sw rt offset rs)
  | flush (u : State) : cacheFlush s = some u → m = u.mem → BusEffect s m (.cache 2)

theorem flushIfOn_off (ho : s.cacheOn = false) : flushIfOn s = some s := by simp [flushIfOn, ho]

/-- With the cache off a read changes nothing. -/
theorem memRead_off_state (ho : s.cacheOn = false) {b : Int} {p : Word × State} (hr : memRead s b = some p) :
    p.2 = s := by
  cases hb : validAddr s.cfg b with
  | false => simp [memRead_invalid hb] at hr
  | true => rw [memRead_off ho hb] at hr; cases hr; rfl

theorem execSw_busEffect (ho : s.cacheOn = false) {rt rs : Nat} {offset : Int}
    (he : exec (.sw rt offset rs) s = .next t) : BusEffect s t.mem (.sw rt offset rs) := by
  cases hb : validAddr s.cfg (effectiveAddress s rs offset) with
  | false =>
    simp only [exec, execSw, memWrite_invalid hb, Option.map_none, commit] at he
    cases he
    exact .none _ rfl
  | true =>
    rw [exec_sw_of_memWrite (memWrite_off ho hb _)] at he
    cases he
    exact .store rt rs offset hb rfl

theorem execCache_busEffect {code : Int} (he : exec (.cache code) s = .next t) : BusEffect s t.mem (.cache code) := by
  simp only [exec, execCache] at he
  split at he
  · cases he; exact .none _ rfl
  split at he
  · cases he; exact .none _ rfl
  split at he
  · next hk =>
    subst hk
    rcases commit_cases he with hf | ⟨-, rfl⟩
    · obtain ⟨u, hu, rfl⟩ := Option.map_eq_some_iff.1 hf
      exact .flush u hu rfl
    · exact .none _ rfl
  · cases he; exact .none _ rfl

theorem exec_busEffect (ho : s.cacheOn = false) {i : Instr} (he : exec i s = .next t) : BusEffect s t.mem i := by
  cases i with
  | bne rs rt offset => cases he; split <;> exact .none _ rfl
  | lw rt offset rs =>
    rcases commit_cases he with hr | ⟨-, rfl⟩
    · obtain ⟨p, hp, rfl⟩ := Option.map_eq_some_iff.1 hr
      exact .none _ (by rw [finishWith_mem, memRead_off_state ho hp])
    · exact .none _ rfl
  | sw rt offset rs => exact execSw_busEffect ho he
  | cache code => exact execCache_busEffect he
  | halt =>
    simp only [exec, execHalt, flushIfOn_off ho, Option.map_some, commit] at he
    cases he
    obtain ⟨-, -, -, -, -, hm, -⟩ := haltedState_fields s
    exact .none _ hm
  | _ => cases he; exact .none _ rfl

/-- With the cache off, a step that changes the MemoryBus does it through its instruction. -/
theorem step_busEffect (ho : s.cacheOn = false) (hstep : step s = .next t) (hne : t.mem ≠ s.mem) :
    ∃ i, currentInstr s = some i ∧ BusEffect s t.mem i := by
  rcases step_shape hstep with ⟨k, rfl⟩ | ⟨u, hu, rfl, -⟩ | ⟨i, hi, he⟩
  · exact absurd rfl hne
  · rw [flushIfOn_off ho] at hu
    cases hu
    exact absurd rfl hne
  · exact ⟨i, hi, exec_busEffect ho he⟩

/-- A word a flush changes is a word of a dirty line's block, and holds that line's word. -/
theorem cacheFlush_changed (h : Inv s) (hf : cacheFlush s = some u) {w : Nat} (hne : u.mem.read w ≠ s.mem.read w) :
    ∃ i o, i < s.cfg.numLines ∧ lineDirty s i ∧ isWordOfLine s i o w ∧ u.mem.read w = lineData s i o := by
  obtain ⟨m', he, -, -, hread⟩ := cacheFlush_spec h
  obtain rfl : flushedState s m' = u := by rw [he] at hf; exact Option.some.inj hf
  change m'.read w ≠ _ at hne
  change ∃ i o, _ ∧ _ ∧ _ ∧ m'.read w = _
  rw [hread w] at hne ⊢
  split_ifs at hne ⊢ with hd
  · obtain ⟨hh, hdirty⟩ := hd
    obtain ⟨hv, ht⟩ := (hits_word s w).1 hh
    refine ⟨wordLine s.cfg w, w % s.cfg.blockSize, wordLine_lt h.cfgWf w, ⟨hv, indexOf_word s.cfg w ▸ hdirty⟩,
      ⟨wordOffset_lt h.cfgWf w, ?_⟩, lineWord_word s w⟩
    rw [ht, baseWord_word h.cfgWf]
  · exact absurd rfl hne

/-- Settles O27: of the MemoryBus effects an instruction can have with the cache off, only a store and a flush change
a word. -/
theorem busWordsChangeOnlyByStoreOrFlush : Obligations.BusWordsChangeOnlyByStoreOrFlush := by
  intro s t w h ho hstep hne
  obtain ⟨i, hi, hbus⟩ := step_busEffect ho hstep fun hm => hne (by rw [hm])
  cases hbus with
  | none _ hm => exact absurd (by rw [hm]) hne
  | store rt rs offset hb hm =>
    rw [hm, Memory.read_write h.memWf] at hne ⊢
    split_ifs at hne ⊢ with hw
    · obtain ⟨ha, -⟩ := (validAddr_wordIndex_iff h.cfgWf).1 ⟨hb, hw⟩
      exact .inl ⟨rt, offset, rs, hi, ha, rfl⟩
    · exact absurd rfl hne
  | flush u hf hm =>
    rw [hm] at hne ⊢
    exact .inr ⟨hi, cacheFlush_changed h hf hne⟩

/-! #### The mode switch -/

/-- The encoding of each CACHE code decodes to it (R77, R78). -/
theorem decodeWord_cache (c : Config) {code : Int} (hk : codeInRange code = true) :
    decodeWord c (iWord 0b101111#6 0#5 0#5 (BitVec.ofInt 16 code)) = .instr (.cache code) := by
  have hw : iWord 0b101111#6 0#5 0#5 (BitVec.ofInt 16 code) = iFormat 0x2F 0 0 (imm16 code) := by
    rw [iWord_eq, BitVec.toNat_ofInt]
    rfl
  obtain ⟨hop, hrs, hrt, himm⟩ :=
    iFormat_fields (op := 0x2F) (rs := 0) (rt := 0) (by omega) (by omega) (by omega) (imm16_lt code)
  rw [hw, decodeWord_of_row (r := ⟨.cache, 0x2F, none, [(25, 21), (20, 16)]⟩) (by decide)
    (selects_iff.2 ⟨hop, fun _ hf => by cases hf⟩)]
  have hz : (OpRow.mk .cache 0x2F none [(25, 21), (20, 16)]).zerosHold (iFormat 0x2F 0 0 (imm16 code)) = true := by
    simp only [rsField, rtField] at hrs hrt
    simp [OpRow.zerosHold, hrs, hrt]
  simp [hz, instrOfFields, himm, zext16_imm16 hk, Instr.wf, hk]

/-- CACHE 0 and CACHE 1 set the mode and advance the pc. -/
theorem exec_cache_switch (s : State) (on : Bool) :
    exec (.cache (if on then 1 else 0)) s = .next (advancePc (setEnabled s on)) := by
  cases on <;> rfl

/-- Settles O42: the meaning of either code is one update of the mode and one of the pc. -/
theorem cacheCodesSwitchTheMode : Obligations.CacheCodesSwitchTheMode := by
  intro s _ on
  refine ⟨decodeWord_cache s.cfg (by cases on <;> rfl), _, exec_cache_switch s on, rfl, nextPc_eq s,
    ⟨rfl, rfl, rfl, fun _ _ => rfl⟩, rfl, fun _ => rfl⟩

/-! #### A store a kept line hides -/

/-- A hit reads the line's word and changes nothing. -/
theorem cacheRead_hit {b : Int} (hb : validAddr s.cfg b = true) (hh : hits s b = true) :
    cacheRead s b = some (lineWord s b, s) :=
  cacheRead_eq hb (by simp [ensureLine, hh])

/-- A flush reads and writes neither the pc nor the status. -/
theorem cacheFlush_advancePc (s : State) : cacheFlush (advancePc s) = (cacheFlush s).map advancePc := by
  rw [cacheFlush_eq_map, cacheFlush_eq_map, Option.map_map]
  rfl

/-- CACHE 2 executes the flush. -/
theorem exec_cache_two (hf : cacheFlush s = some u) : exec (.cache 2) s = .next (advancePc u) := by
  simp [exec, execCache, hf, commit]

/-- A flush writes the word of a dirty line that holds an address to that address. -/
theorem cacheFlush_hit (h : Inv s) {b : Int} (hb : validAddr s.cfg b = true) (hh : hits s b = true)
    (hd : (lineAt s (indexOf s.cfg b)).dirty = true) :
    ∃ u, cacheFlush s = some u ∧ u.mem.read (wordIndex b) = lineWord s b := by
  obtain ⟨m', he, -, -, hread⟩ := cacheFlush_spec h
  obtain ⟨hb4, -⟩ := validAddr_elim h.cfgWf hb
  refine ⟨_, he, (hread _).trans ?_⟩
  rw [← hb4, if_pos ⟨hh, hd⟩]

/-- A store to a valid address of the MemoryBus keeps the invariant. -/
theorem Inv.setMem_write (h : Inv s) {b : Int} (hb : validAddr s.cfg b = true) (v : Word) :
    Inv (Machine.setMem s (s.mem.write (wordIndex b) v)) :=
  h.setMem (Memory.wf_write h.memWf _ _) (Memory.inRange_write h.memInRange (validAddr_elim h.cfgWf hb).2 _)

/-- Settles O50: the store leaves every line as it was, so the load hits the old word and the flush writes it. -/
theorem switchedModesHideAStore : Obligations.SwitchedModesHideAStore := by
  intro s rt rs dst offset h _ hdst ho ea hb hh
  refine ⟨_, exec_sw_of_memWrite (memWrite_off ho hb _), ?_, ?_, fun hd => ?_⟩
  · exact (Memory.read_write h.memWf _ _ _).trans (if_pos rfl)
  · refine ⟨_, _, exec_cache_switch _ true, exec_lw_of_memRead ((memRead_on rfl ea).trans (cacheRead_hit hb hh)), ?_⟩
    exact regWritten_finishWith _ (h.regsLength ▸ hdst) _
  · obtain ⟨u, hu, hread⟩ := cacheFlush_hit (h.setMem_write hb (readReg s rt)) hb hh hd
    exact ⟨_, exec_cache_two (u := advancePc u) (by rw [cacheFlush_advancePc, hu]; rfl), hread⟩

end Sys2Proof.Machine
end

/-! ### The instruction word (30_encoding.md R72 to R80): encoder and decoder undo each other -/
section
namespace Sys2Proof

variable {c : Config} {w : Word}

/-! #### Encode, then decode -/

/-- ADD, SUB and SLT: the fields of an R word are the registers laid into it. -/
theorem decodeWord_rFormat_instr (o : Opcode) {mk : Nat → Nat → Nat → Instr} {f rs rt rd : Nat} (hf : f < 64)
    (hmem : ⟨o, 0, some f, [(10, 6)]⟩ ∈ opTable)
    (hmk : ∀ w, instrOfFields o w = mk (rdField w) (rsField w) (rtField w)) (hc : c.wf = true)
    (hr : (regInRange c rd && regInRange c rs && regInRange c rt) = true) (hwf : (mk rd rs rt).wf c = true) :
    decodeWord c (rFormat rs rt rd f) = .instr (mk rd rs rt) := by
  obtain ⟨hd, hs, ht⟩ := Laws.RecordForm.three hr
  have hd := regInRange_lt hc hd
  have hs := regInRange_lt hc hs
  have ht := regInRange_lt hc ht
  obtain ⟨-, hrs, hrt, hrd, -, -⟩ := rFormat_fields hs ht hd hf
  rw [decodeWord_rFormat hf hs ht hd hmem, hmk, hrs, hrt, hrd, if_pos hwf]

/-- The instructions with two registers and a signed immediate: so are the fields of an I word. -/
theorem decodeWord_iFormat_instr (o : Opcode) {mk : Nat → Nat → Int → Instr} {op rs rt : Nat} {n : Int} (ho : op < 64)
    (hmem : ⟨o, op, none, []⟩ ∈ opTable)
    (hmk : ∀ w, instrOfFields o w = mk (rsField w) (rtField w) (sext16 (immField w))) (hc : c.wf = true)
    (hs : regInRange c rs = true) (ht : regInRange c rt = true) (hn : immInRange n = true)
    (hwf : (mk rs rt n).wf c = true) :
    decodeWord c (iFormat op rs rt (imm16 n)) = .instr (mk rs rt n) := by
  have hs := regInRange_lt hc hs
  have ht := regInRange_lt hc ht
  obtain ⟨-, hrs, hrt, himm⟩ := iFormat_fields ho hs ht (imm16_lt n)
  rw [decodeWord_iFormat ho hs ht (imm16_lt n) hmem, hmk, hrs, hrt, himm, sext16_imm16 hn, if_pos hwf]

/-- J and JAL: so is the field of a J word. -/
theorem decodeWord_jFormat_instr (o : Opcode) {mk : Nat → Instr} {op t : Nat} (ho : op < 64)
    (hmem : ⟨o, op, none, []⟩ ∈ opTable) (hmk : ∀ w, instrOfFields o w = mk (targetField w))
    (ht : targetInRange t = true) (hwf : (mk t).wf c = true) :
    decodeWord c (jFormat op t) = .instr (mk t) := by
  have ht := targetInRange_iff.1 ht
  obtain ⟨-, htarget⟩ := jFormat_fields ho ht
  rw [decodeWord_jFormat ho ht hmem, hmk, htarget, if_pos hwf]

/-- CACHE, whose two register fields are 0. -/
theorem decodeWord_encode_cache {code : Int} (hk : codeInRange code = true) :
    decodeWord c (encode (.cache code)) = .instr (.cache code) := by
  have h := Machine.decodeWord_cache c hk
  rwa [Machine.iWord_eq, BitVec.toNat_ofInt] at h

/-- Settles O7, instruction by instruction: each format's fields are the numbers laid into them. -/
theorem decodeOfEncodeIsTheInstruction : Obligations.DecodeOfEncodeIsTheInstruction := by
  intro c i hc h
  cases i with
  | add rd rs rt => exact decodeWord_rFormat_instr .add (mk := .add) (by decide) (by decide) (fun _ => rfl) hc h h
  | sub rd rs rt => exact decodeWord_rFormat_instr .sub (mk := .sub) (by decide) (by decide) (fun _ => rfl) hc h h
  | slt rd rs rt => exact decodeWord_rFormat_instr .slt (mk := .slt) (by decide) (by decide) (fun _ => rfl) hc h h
  | addi rt rs n =>
    obtain ⟨ht, hs, hn⟩ := Laws.RecordForm.two h
    exact decodeWord_iFormat_instr .addi (mk := fun s t n => .addi t s n) (by decide) (by decide) (fun _ => rfl)
      hc hs ht hn h
  | subi rd rs n =>
    obtain ⟨hd, hs, hn⟩ := Laws.RecordForm.two h
    exact decodeWord_iFormat_instr .subi (mk := fun s d n => .subi d s n) (by decide) (by decide) (fun _ => rfl)
      hc hs hd hn h
  | bne rs rt n =>
    obtain ⟨hs, ht, hn⟩ := Laws.RecordForm.two h
    exact decodeWord_iFormat_instr .bne (mk := .bne) (by decide) (by decide) (fun _ => rfl) hc hs ht hn h
  | lw rt n rs =>
    obtain ⟨ht, hs, hn⟩ := Laws.RecordForm.two h
    exact decodeWord_iFormat_instr .lw (mk := fun s t n => .lw t n s) (by decide) (by decide) (fun _ => rfl)
      hc hs ht hn h
  | sw rt n rs =>
    obtain ⟨ht, hs, hn⟩ := Laws.RecordForm.two h
    exact decodeWord_iFormat_instr .sw (mk := fun s t n => .sw t n s) (by decide) (by decide) (fun _ => rfl)
      hc hs ht hn h
  | j t => exact decodeWord_jFormat_instr .j (mk := .j) (by decide) (by decide) (fun _ => rfl) h h
  | jal t => exact decodeWord_jFormat_instr .jal (mk := .jal) (by decide) (by decide) (fun _ => rfl) h h
  | cache code => exact decodeWord_encode_cache h
  | nop => rfl
  | halt => rfl

/-! #### The row of an opcode -/

/-- The row of R76 an opcode has. -/
def Opcode.row (o : Opcode) : OpRow := (opTable.find? (·.opcode = o)).getD ⟨o, 0, none, []⟩

/-- The table holds the thirteen opcodes' rows and no other, each once. -/
theorem opTable_row : ∀ r ∈ opTable, r.opcode.row = r := by decide

theorem Opcode.row_mem (o : Opcode) : o.row ∈ opTable := by cases o <;> decide

theorem Opcode.row_opcode (o : Opcode) : o.row.opcode = o := by cases o <;> rfl

/-- A word selects the row of an opcode exactly where that row's selection holds (R76). -/
theorem selectRow_eq_row_iff {o : Opcode} : selectRow w = some o.row ↔ o.row.selects w = true :=
  ⟨fun h => (selectRow_some h).2, selectRow_of_selects o.row_mem⟩

/-! #### Decode, then encode -/

/-- A word of an R row with shamt 0 is the R format of its fields and the row's function. -/
theorem rFormat_of_selects {o : Opcode} {f : Nat} {z : List (Nat × Nat)}
    (hs : (OpRow.mk o 0 (some f) z).selects w = true) (hz : bits 10 6 w = 0) :
    rFormat (rsField w) (rtField w) (rdField w) f = w := by
  obtain ⟨hop, hf⟩ := selects_iff.1 hs
  rw [← hf f rfl]
  exact rFormat_of_fields hop hz

/-- A word of a row without a function is the I format of its fields. -/
theorem iFormat_of_selects {o : Opcode} {op : Nat} {z : List (Nat × Nat)}
    (hs : (OpRow.mk o op none z).selects w = true) :
    iFormat op (rsField w) (rtField w) (immField w) = w := by
  obtain ⟨rfl, -⟩ := selects_iff.1 hs
  exact iFormat_of_fields w

/-- Such a word is the J format of its fields too. -/
theorem jFormat_of_selects {o : Opcode} {op : Nat} {z : List (Nat × Nat)}
    (hs : (OpRow.mk o op none z).selects w = true) : jFormat op (targetField w) = w := by
  obtain ⟨rfl, -⟩ := selects_iff.1 hs
  exact jFormat_of_fields w

/-- The zeros of a row, as equations. -/
theorem zerosHold_iff {r : OpRow} : r.zerosHold w = true ↔ ∀ f ∈ r.mustBeZero, bits f.1 f.2 w = 0 := by
  simp [OpRow.zerosHold]

/-- The word of a row whose zeros hold is the encoding of the instruction its fields spell. -/
theorem encode_instrOfFields {o : Opcode} (hs : o.row.selects w = true) (hz : o.row.zerosHold w = true) :
    encode (instrOfFields o w) = w := by
  have hz := zerosHold_iff.1 hz
  obtain ⟨-, -, -, -, -, himm, -⟩ := field_bounds w
  have hsext : imm16 (sext16 (immField w)) = immField w := imm16_sext16 himm
  cases o
  case add | sub | slt => exact rFormat_of_selects hs (hz (10, 6) (by decide))
  case addi | subi | bne | lw | sw => exact (congrArg _ hsext).trans (iFormat_of_selects hs)
  case j | jal => exact jFormat_of_selects hs
  case cache =>
    have hrs : rsField w = 0 := hz (25, 21) (by decide)
    have hrt : rtField w = 0 := hz (20, 16) (by decide)
    have hw := iFormat_of_selects hs
    rwa [hrs, hrt, ← imm16_zext16 himm] at hw
  case nop =>
    have hrs : rsField w = 0 := hz (25, 21) (by decide)
    have hrt : rtField w = 0 := hz (20, 16) (by decide)
    have hrd : rdField w = 0 := hz (15, 11) (by decide)
    have hw := rFormat_of_selects hs (hz (10, 6) (by decide))
    rwa [hrs, hrt, hrd] at hw
  case halt =>
    have ht : targetField w = 0 := hz (25, 0) (by decide)
    have hw := jFormat_of_selects hs
    rwa [ht] at hw

/-- Settles O8: the selected row, its zeros and its fields make up the whole word. -/
theorem encodeOfDecodeIsTheWord : Obligations.EncodeOfDecodeIsTheWord := by
  intro c w i h
  obtain ⟨r, hr, hs, hz, rfl, hwf⟩ := decodeWord_instr h
  rw [← opTable_row r hr] at hs hz
  exact ⟨encode_instrOfFields hs hz, hwf⟩

/-! #### Words the spec writes out -/

/-- Settles O6: each word is evaluated. -/
theorem specWordsDecodeAsWritten : Obligations.SpecWordsDecodeAsWritten := by
  unfold Obligations.SpecWordsDecodeAsWritten
  decide

end Sys2Proof
end

/-! ### The decoded record (30_encoding.md R67 to R70) -/
section
namespace Sys2Proof

variable {c : Config} {o : Opcode} {i : Instr}

/-- A well-formed instruction's record decodes to it. -/
theorem decodeRecord_toRecord (h : i.wf c = true) : decodeRecord c i.toRecord = .instr i := by
  cases i with
  | add rd rs rt => exact Laws.RecordForm.add rd rs rt c h
  | addi rt rs immd => exact Laws.RecordForm.addi rt rs immd c h
  | sub rd rs rt => exact Laws.RecordForm.sub rd rs rt c h
  | subi rd rs immd => exact Laws.RecordForm.subi rd rs immd c h
  | slt rd rs rt => exact Laws.RecordForm.slt rd rs rt c h
  | bne rs rt offset => exact Laws.RecordForm.bne rs rt offset c h
  | j target => exact Laws.RecordForm.j target c h
  | jal target => exact Laws.RecordForm.jal target c h
  | lw rt offset rs => exact Laws.RecordForm.lw rt offset rs c h
  | sw rt offset rs => exact Laws.RecordForm.sw rt offset rs c h
  | cache code => exact Laws.RecordForm.cache code c h
  | nop => exact Laws.RecordForm.nop c h
  | halt => exact Laws.RecordForm.halt c h

/-- What a record of a known opcode decodes to: the instruction it spells where its operands are well typed, else
it is malformed. -/
theorem decodeRecord_known (ops : List Operand) :
    (∃ i, buildInstr o ops = some i ∧ operandsWf c o ops = true ∧ decodeRecord c ⟨.known o, ops⟩ = .instr i) ∨
    decodeRecord c ⟨.known o, ops⟩ = .malformed o := by
  unfold decodeRecord
  cases hb : buildInstr o ops with
  | none => exact .inr (by simp [hb])
  | some i => cases hw : operandsWf c o ops <;> simp [hb, hw]

/-- Well-typed operands are those of the instruction they spell: no register and no target is negative. -/
theorem toRecord_of_buildInstr {ops : List Operand} (hb : buildInstr o ops = some i)
    (hw : operandsWf c o ops = true) : i.toRecord = ⟨.known o, ops⟩ := by
  simp only [operandsWf, Bool.and_eq_true] at hw
  obtain ⟨⟨-, hall⟩, -⟩ := hw
  unfold buildInstr at hb
  split at hb <;> cases hb
  all_goals
    simp only [List.all_cons, List.all_nil, Operand.wellTyped, Bool.and_eq_true, decide_eq_true_eq] at hall
    simp [Instr.toRecord, Instr.opcode, Instr.operands, hall]

/-- Settles O12: the operands of a record that decodes are determined by the instruction. -/
theorem recordsDecodeToTheirInstructions : Obligations.RecordsDecodeToTheirInstructions := by
  rintro c ⟨_ | _, ops⟩
  case known o =>
    refine ⟨fun i => ⟨fun h => ?_, ?_⟩, ?_, ?_⟩
    · refine ⟨Machine.decodeEntry_wf (e := .record ⟨.known o, ops⟩) h, ?_⟩
      obtain ⟨i', hb, hw, hd⟩ | hm := decodeRecord_known (c := c) (o := o) ops
      · cases h.symm.trans hd
        exact (toRecord_of_buildInstr hb hw).symm
      · cases h.symm.trans hm
    · rintro ⟨hwf, hr⟩
      exact hr ▸ decodeRecord_toRecord hwf
    · rintro o' ⟨⟩ hno
      obtain ⟨i, -, -, hd⟩ | hm := decodeRecord_known (c := c) (o := o) ops
      · exact absurd hd (hno i)
      · exact hm
    · rintro ⟨⟩
  case unknown =>
    refine ⟨fun i => ⟨?_, ?_⟩, ?_, fun _ => rfl⟩
    · rintro ⟨⟩
    · rintro ⟨-, ⟨⟩⟩
    · rintro o ⟨⟩

end Sys2Proof
end

/-! ### Programs that decode alike run alike (30_encoding.md R80, R81): nothing but the fetch reads the program -/
section
namespace Sys2Proof.Machine

variable {s : State} {p q : List Entry}

/-- `s` with another instruction store. -/
def withProgram (p : List Entry) (s : State) : State := { s with imem := p }

@[simp] theorem withProgram_cfg (p : List Entry) (s : State) : (withProgram p s).cfg = s.cfg := rfl
@[simp] theorem withProgram_status (p : List Entry) (s : State) : (withProgram p s).status = s.status := rfl
@[simp] theorem withProgram_cacheOn (p : List Entry) (s : State) : (withProgram p s).cacheOn = s.cacheOn := rfl
@[simp] theorem hits_withProgram (p : List Entry) (s : State) (b : Int) : hits (withProgram p s) b = hits s b := rfl
@[simp] theorem registersDiffer_withProgram (p : List Entry) (s : State) (rs rt : Nat) :
    registersDiffer (withProgram p s) rs rt = registersDiffer s rs rt := rfl

/-- An outcome with another instruction store in its next state. -/
def outcomeWithProgram (p : List Entry) : Host.Outcome State Fault Refusal → Host.Outcome State Fault Refusal
  | .next t => .next (withProgram p t)
  | .fault r => .fault r
  | .refused r => .refused r

/-! #### The operations of the cache and the multiplexer -/

theorem allocate_withProgram (s : State) (i tag : Nat) :
    allocate (withProgram p s) i tag = (allocate s i tag).map (withProgram p) := by
  rw [allocate_eq_bind, allocate_eq_bind, Option.map_bind]
  simp only [Function.comp_def, Option.map_map]
  rfl

theorem ensureLine_withProgram (s : State) (b : Int) :
    ensureLine (withProgram p s) b = (ensureLine s b).map (withProgram p) := by
  rw [ensureLine, ensureLine, hits_withProgram]
  split
  · rfl
  · exact allocate_withProgram s _ _

theorem cacheRead_withProgram (s : State) (b : Int) :
    cacheRead (withProgram p s) b = (cacheRead s b).map (Prod.map id (withProgram p)) := by
  rw [cacheRead, cacheRead, withProgram_cfg, ensureLine_withProgram]
  split
  · cases ensureLine s b <;> rfl
  · rfl

theorem cacheWrite_withProgram (s : State) (b : Int) (v : Word) :
    cacheWrite (withProgram p s) b v = (cacheWrite s b v).map (withProgram p) := by
  rw [cacheWrite, cacheWrite, withProgram_cfg, ensureLine_withProgram]
  split
  · cases ensureLine s b <;> rfl
  · rfl

theorem memRead_withProgram (s : State) (b : Int) :
    memRead (withProgram p s) b = (memRead s b).map (Prod.map id (withProgram p)) := by
  cases ho : s.cacheOn with
  | true => rw [memRead_on ho, memRead_on (s := withProgram p s) ho, cacheRead_withProgram]
  | false =>
    cases hb : validAddr s.cfg b with
    | true => rw [memRead_off ho hb, memRead_off (s := withProgram p s) ho hb]; rfl
    | false => rw [memRead_invalid hb, memRead_invalid (s := withProgram p s) hb]; rfl

theorem memWrite_withProgram (s : State) (b : Int) (v : Word) :
    memWrite (withProgram p s) b v = (memWrite s b v).map (withProgram p) := by
  cases ho : s.cacheOn with
  | true => rw [memWrite_on ho, memWrite_on (s := withProgram p s) ho, cacheWrite_withProgram]
  | false =>
    cases hb : validAddr s.cfg b with
    | true => rw [memWrite_off ho hb, memWrite_off (s := withProgram p s) ho hb]; rfl
    | false => rw [memWrite_invalid hb, memWrite_invalid (s := withProgram p s) hb]; rfl

theorem cacheFlush_withProgram (s : State) :
    cacheFlush (withProgram p s) = (cacheFlush s).map (withProgram p) := by
  rw [cacheFlush_eq_map, cacheFlush_eq_map, Option.map_map]
  rfl

theorem flushIfOn_withProgram (s : State) :
    flushIfOn (withProgram p s) = (flushIfOn s).map (withProgram p) := by
  rw [flushIfOn, flushIfOn, withProgram_cacheOn, cacheFlush_withProgram]
  split <;> rfl

theorem haltedState_withProgram (s : State) : haltedState (withProgram p s) = withProgram p (haltedState s) := by
  rw [haltedState, haltedState, withProgram_cfg]
  split <;> rfl

/-! #### Meanings and steps -/

/-- A commit of an access that answers the same under either program, and an update after it that does too. -/
theorem commit_withProgram {α : Type} (s : State) {r r' : Option α} {g : α → α} (hr : r' = r.map g) {f : α → State}
    (hf : ∀ a, f (g a) = withProgram p (f a)) :
    commit (withProgram p s) (r'.map f) = outcomeWithProgram p (commit s (r.map f)) := by
  subst hr
  cases r with
  | none => rfl
  | some a => exact congrArg Host.Outcome.next (hf a)

/-- No meaning reads or writes the instruction store. -/
theorem exec_withProgram (i : Instr) (s : State) :
    exec i (withProgram p s) = outcomeWithProgram p (exec i s) := by
  cases i
  case add | addi | sub | subi | slt | j | jal | nop => rfl
  case bne rs rt offset =>
    cases hd : registersDiffer s rs rt <;> simp only [exec, execBne, registersDiffer_withProgram, hd] <;> rfl
  case lw rt offset rs => exact commit_withProgram s (memRead_withProgram s _) fun _ => rfl
  case sw rt offset rs => exact commit_withProgram s (memWrite_withProgram s _ _) fun _ => rfl
  case cache code =>
    simp only [exec, execCache]
    split
    · rfl
    split
    · rfl
    split
    · exact commit_withProgram s (cacheFlush_withProgram s) fun _ => rfl
    · rfl
  case halt => exact commit_withProgram s (flushIfOn_withProgram s) haltedState_withProgram

/-- Entry by entry, the two programs decode to the same. -/
def DecodeAlike (c : Config) (p q : List Entry) : Prop := p.map (decodeEntry c) = q.map (decodeEntry c)

/-- Two answers of a fetch: entries that decode to the same, or the same answer without an entry. -/
inductive FetchedAlike (c : Config) : Fetched → Fetched → Prop where
  | entry {e e' : Entry} : decodeEntry c e = decodeEntry c e' → FetchedAlike c (.entry e) (.entry e')
  | implicitHalt : FetchedAlike c .implicitHalt .implicitHalt
  | outOfRange : FetchedAlike c .outOfRange .outOfRange

theorem DecodeAlike.length_eq {c : Config} (h : DecodeAlike c p q) : p.length = q.length := by
  simpa using congrArg List.length h

theorem DecodeAlike.getElem? {c : Config} (h : DecodeAlike c p q) (k : Nat) :
    p[k]?.map (decodeEntry c) = q[k]?.map (decodeEntry c) := by
  rw [← List.getElem?_map, ← List.getElem?_map, h]

theorem fetch_withProgram_past_end (hl : 4 * p.length ≤ uint s.pc) :
    fetch (withProgram p s) =
      if s.cfg.implicitHalt = true ∧ uint s.pc = 4 * p.length then .implicitHalt else .outOfRange :=
  fetch_past_end hl

theorem DecodeAlike.fetch (h : DecodeAlike s.cfg p q) :
    FetchedAlike s.cfg (Machine.fetch (withProgram p s)) (Machine.fetch (withProgram q s)) := by
  have hk := h.getElem? (uint s.pc / 4)
  cases hq : q[uint s.pc / 4]? with
  | some e' =>
    rw [hq] at hk
    obtain ⟨e, he, hd⟩ := Option.map_eq_some_iff.1 hk
    rw [fetch_entry_iff (s := withProgram p s).2 he, fetch_entry_iff (s := withProgram q s).2 hq]
    exact .entry hd
  | none =>
    have hend : 4 * q.length ≤ uint s.pc := by
      have := List.getElem?_eq_none_iff.1 hq
      omega
    rw [fetch_withProgram_past_end (h.length_eq ▸ hend), fetch_withProgram_past_end hend, h.length_eq]
    split
    · exact .implicitHalt
    · exact .outOfRange

theorem DecodeAlike.stepRunning (h : DecodeAlike s.cfg p q) :
    Machine.stepRunning (withProgram p s) = outcomeWithProgram p (Machine.stepRunning (withProgram q s)) := by
  have hf := h.fetch
  unfold Machine.stepRunning
  generalize Machine.fetch (withProgram p s) = f at hf ⊢
  generalize Machine.fetch (withProgram q s) = f' at hf ⊢
  cases hf with
  | @entry e e' hd =>
    simp only [runEntry, withProgram_cfg, hd]
    cases decodeEntry s.cfg e' with
    | unknown => rfl
    | malformed o => rfl
    | instr i => exact exec_withProgram i (withProgram q s)
  | implicitHalt =>
    exact commit_withProgram (withProgram q s) (f := setHalted) (flushIfOn_withProgram (withProgram q s))
      fun _ => rfl
  | outOfRange => rfl

theorem DecodeAlike.step (h : DecodeAlike s.cfg p q) :
    Machine.step (withProgram p s) = outcomeWithProgram p (Machine.step (withProgram q s)) := by
  rw [Machine.step, Machine.step, h.stepRunning, withProgram_status, withProgram_status]
  cases s.status with
  | halted => rfl
  | error r => rfl
  | running => cases hc : s.cfg.wf <;> simp only [withProgram_cfg, hc] <;> rfl

/-- The two runs go through the same states, but for the program. -/
theorem DecodeAlike.runCeiling (h : DecodeAlike s.cfg p q) (n : Nat) :
    State.runCeiling n (withProgram p s) = withProgram p (State.runCeiling n (withProgram q s)) := by
  induction n generalizing s with
  | zero => rfl
  | succ n ih =>
    rw [State.runCeiling, State.runCeiling, h.step]
    cases hstep : Machine.step (withProgram q s) with
    | next t =>
      obtain ⟨hc, hq, -, -⟩ := step_frame hstep
      have ht : withProgram q t = t := by rw [withProgram, ← show t.imem = q from hq]
      have := ih (s := t) (show DecodeAlike t.cfg p q by rw [hc]; exact h)
      rwa [ht] at this
    | fault r => rfl
    | refused r => rfl

/-- Settles O13: a well-formed instruction is what its record and its word both decode to. -/
theorem recordsAndWordsRunAlike : Obligations.RecordsAndWordsRunAlike := by
  intro prog s n hc hwf
  refine DecodeAlike.runCeiling (s := s) ?_ n
  simp only [DecodeAlike, List.map_map]
  refine List.map_congr_left fun i hi => ?_
  exact (decodeRecord_toRecord (hwf i hi)).trans (decodeOfEncodeIsTheInstruction s.cfg i hc (hwf i hi)).symm

end Sys2Proof.Machine
end

/-! ### One step on a fetched entry (30_encoding.md R81) -/
section
namespace Sys2Proof.Machine

variable {s : State} {e : Entry}

/-- A running core runs the entry it fetches. -/
theorem step_eq_runEntry (hr : s.status = .running) (hc : s.cfg.wf = true) (he : s.imem[uint s.pc / 4]? = some e) :
    step s = runEntry e s := by
  rw [step_of_running hr hc, stepRunning, fetch_entry_iff.2 he]

/-- An entry that is not run is an error of the step. -/
theorem step_raises {k : ErrorKind} (hr : s.status = .running) (hc : s.cfg.wf = true)
    (he : s.imem[uint s.pc / 4]? = some e) (hd : runEntry e s = .next (raiseError k s)) :
    ∃ t, step s = .next t ∧ Raised k s t :=
  ⟨_, (step_eq_runEntry hr hc he).trans hd, raised_raiseError k s⟩

/-- Settles O14: what runs of an entry that decodes to an instruction is its meaning alone. -/
theorem stepRunsTheDecodedInstruction : Obligations.StepRunsTheDecodedInstruction := by
  intro s e i hr hc he hd
  rw [step_eq_runEntry hr hc he, runEntry, hd]

/-- The entry placed at an index is the one the index reads. -/
theorem getElem?_placeEntry (prog : List Entry) (k : Nat) (e : Entry) : (placeEntry prog k e)[k]? = some e := by
  unfold placeEntry
  split
  · next hk => exact List.getElem?_set_self hk
  · next hk =>
    have hlen : (prog ++ List.replicate (k - prog.length) (Entry.word 0#32)).length = k := by
      rw [List.length_append, List.length_replicate]
      omega
    have h := List.getElem?_concat_length (l := prog ++ List.replicate (k - prog.length) (Entry.word 0#32)) (a := e)
    rwa [hlen] at h

/-- Settles O15: the placed word is the entry the pc points at, and the core is running. -/
theorem placedWordIsTheNextInstruction : Obligations.PlacedWordIsTheNextInstruction :=
  fun s nbits w i hc hd =>
    stepRunsTheDecodedInstruction (s.withFetchWord nbits w) (entryOfBits nbits w) i rfl hc
      (getElem?_placeEntry s.imem (fetchIndex s) _) hd

end Sys2Proof.Machine
end

/-! ### The fields as extracted bits, and R76's match and mask columns -/
section
namespace Sys2Proof

variable {w : Word} {r : OpRow}

/-! #### Extracted bits -/

theorem toNat_extractLsb'_eq_bits (w : Word) (lo len : Nat) :
    (w.extractLsb' lo (len + 1)).toNat = bits (len + lo) lo w := by
  rw [BitVec.extractLsb'_toNat, Nat.shiftRight_eq_div_pow, bits, show len + lo + 1 - lo = len + 1 by omega]

/-- `op` of R73 to R75. -/
theorem toNat_op (w : Word) : (w.extractLsb' 26 6).toNat = opField w := toNat_extractLsb'_eq_bits w 26 5
/-- `rs` of R73 and R74. -/
theorem toNat_rs (w : Word) : (w.extractLsb' 21 5).toNat = rsField w := toNat_extractLsb'_eq_bits w 21 4
/-- `rt` of R73 and R74. -/
theorem toNat_rt (w : Word) : (w.extractLsb' 16 5).toNat = rtField w := toNat_extractLsb'_eq_bits w 16 4
/-- `rd` of R73. -/
theorem toNat_rd (w : Word) : (w.extractLsb' 11 5).toNat = rdField w := toNat_extractLsb'_eq_bits w 11 4
/-- `shamt` of R73. -/
theorem toNat_shamt (w : Word) : (w.extractLsb' 6 5).toNat = bits 10 6 w := toNat_extractLsb'_eq_bits w 6 4
/-- `funct` of R73. -/
theorem toNat_funct (w : Word) : (w.extractLsb' 0 6).toNat = functField w := toNat_extractLsb'_eq_bits w 0 5
/-- `imm16` of R74. -/
theorem toNat_imm (w : Word) : (w.extractLsb' 0 16).toNat = immField w := toNat_extractLsb'_eq_bits w 0 15
/-- `target26` of R75. -/
theorem toNat_target (w : Word) : (w.extractLsb' 0 26).toNat = targetField w := toNat_extractLsb'_eq_bits w 0 25

/-! #### Match and mask -/

/-- The mask column of R76: bits 31:26, and bits 5:0 in a row with a function. -/
def OpRow.mask (r : OpRow) : Word := if r.funct.isSome then 0xFC00003F#32 else 0xFC000000#32

/-- The match column of R76: the row's op and function where the mask has them. -/
def OpRow.matchWord (r : OpRow) : Word := BitVec.ofNat 32 (r.op * 2 ^ 26 + r.funct.getD 0)

theorem opTable_bounds : ∀ r ∈ opTable, r.op < 64 ∧ r.funct.getD 0 < 64 := by decide

/-- A word is its op, the bits between, and its funct. -/
theorem eq_op_append_funct (w : Word) : w = w.extractLsb' 26 6 ++ w.extractLsb' 6 20 ++ w.extractLsb' 0 6 := by
  apply BitVec.eq_of_toNat_eq
  simp only [toNat_concat, BitVec.extractLsb'_toNat, Nat.shiftRight_eq_div_pow]
  omega

/-- A mask of R76, all of op and a part of funct, keeps op and that part. -/
theorem toNat_and_mask (w : Word) (m : BitVec 6) :
    (w &&& BitVec.allOnes 6 ++ 0#20 ++ m).toNat = opField w * 2 ^ 26 + (w.extractLsb' 0 6 &&& m).toNat := by
  conv_lhs => rw [eq_op_append_funct w]
  rw [BitVec.and_append, BitVec.and_append, BitVec.and_allOnes, BitVec.and_zero, toNat_concat, toNat_concat, toNat_op]
  simp only [BitVec.toNat_ofNat]
  omega

theorem toNat_and_opMask (w : Word) : (w &&& 0xFC000000#32).toNat = opField w * 2 ^ 26 := by
  have hm : 0xFC000000#32 = BitVec.allOnes 6 ++ 0#20 ++ 0#6 := by decide
  rw [hm, toNat_and_mask, BitVec.and_zero, BitVec.toNat_zero, Nat.add_zero]

theorem toNat_and_opFunctMask (w : Word) : (w &&& 0xFC00003F#32).toNat = opField w * 2 ^ 26 + functField w := by
  have hm : 0xFC00003F#32 = BitVec.allOnes 6 ++ 0#20 ++ BitVec.allOnes 6 := by decide
  rw [hm, toNat_and_mask, BitVec.and_allOnes, toNat_funct]

/-- A row's selection is its match and mask columns. -/
theorem selects_iff_and_mask (hr : r ∈ opTable) : r.selects w = true ↔ w &&& r.mask = r.matchWord := by
  obtain ⟨ho, hf⟩ := opTable_bounds r hr
  obtain ⟨hop, -, -, -, hfunct, -⟩ := field_bounds w
  rw [selects_iff, ← BitVec.toNat_inj, OpRow.matchWord, BitVec.toNat_ofNat]
  cases h : r.funct with
  | none =>
    simp only [OpRow.mask, h, Option.isSome_none, toNat_and_opMask, Option.getD_none, Bool.false_eq_true, if_false]
    simp only [reduceCtorEq, false_implies, implies_true, and_true]
    omega
  | some f =>
    simp only [h, Option.getD_some] at hf
    simp only [OpRow.mask, h, Option.isSome_some, if_true, toNat_and_opFunctMask, Option.getD_some, Option.some.injEq,
      forall_eq']
    omega

/-- The opcode of the selected row is that of the one row whose selection holds. -/
theorem map_selectRow_eq_iff (hr : r ∈ opTable) :
    (selectRow w).map OpRow.opcode = some r.opcode ↔ r.selects w = true := by
  rw [← opTable_row r hr, ← selectRow_eq_row_iff, Opcode.row_opcode, Option.map_eq_some_iff]
  constructor
  · rintro ⟨r', hr', ho⟩
    rw [hr', ← ho, opTable_row r' (selectRow_some hr').1]
  · exact fun h => ⟨_, h, Opcode.row_opcode _⟩

/-- Settles O9: the thirteen rows are the table's, with its match and mask columns. -/
theorem matchAndMaskSelectTheRow : Obligations.MatchAndMaskSelectTheRow := by
  intro row hrow w
  have htable : row ∈ opTable.map fun r => (r.opcode, r.matchWord, r.mask) := hrow
  obtain ⟨r, hr, rfl⟩ := List.mem_map.1 htable
  exact (map_selectRow_eq_iff hr).trans (selects_iff_and_mask hr)

end Sys2Proof
end

/-! ### Unknown and malformed words (30_encoding.md R78, R79) -/
section
namespace Sys2Proof

variable {c : Config} {w : Word} {o : Opcode}

/-- A word is unknown, or it selects the row of an opcode. -/
theorem unknown_or_selects (c : Config) (w : Word) :
    decodeWord c w = .unknown ∨ ∃ o : Opcode, o.row.selects w = true := by
  cases h : selectRow w with
  | none => exact .inl (decodeWord_unknown_iff.2 h)
  | some r =>
    obtain ⟨hr, hs⟩ := selectRow_some h
    exact .inr ⟨r.opcode, (opTable_row r hr).symm ▸ hs⟩

theorem not_unknown_of_selects (hs : o.row.selects w = true) : decodeWord c w ≠ .unknown := by
  rw [Ne, decodeWord_unknown_iff, selectRow_eq_row_iff.2 hs]
  exact Option.some_ne_none _

/-! #### Unknown words -/

/-- The op and funct numbers that no row of R76 has. -/
theorem unknown_iff_fields : decodeWord c w = .unknown ↔
    (opField w = 0 ∧ functField w ∉ [0x00, 0x20, 0x22, 0x2A]) ∨
    opField w ∉ [0x00, 0x02, 0x03, 0x05, 0x08, 0x18, 0x23, 0x2B, 0x2F, 0x3F] := by
  rw [decodeWord_unknown_iff, selectRow, List.find?_eq_none]
  simp only [opTable, List.forall_mem_cons, selects_iff, Option.some.injEq, forall_eq', reduceCtorEq, false_implies,
    implies_true]
  simp only [List.mem_cons, List.not_mem_nil, or_false, false_implies, implies_true, and_true]
  omega

/-- Settles O10: the numbers of R76's rows, and the raise of a fetched entry that decodes to nothing. -/
theorem unassignedWordsAreUnknown : Obligations.UnassignedWordsAreUnknown := by
  refine fun c w => ⟨?_, ?_⟩
  · rw [unknown_iff_fields]
    simp only [← toNat_op, ← toNat_funct, List.mem_cons, List.not_mem_nil, ← BitVec.toNat_inj, BitVec.toNat_ofNat]
  · rintro hd s rfl hc hr he
    exact Machine.step_raises hr hc he (by rw [Machine.runEntry, decodeEntry, hd])

/-! #### Malformed words -/

/-- The fields of a word of the opcode's row are as R78 wants them: zeros where a field must be zero, registers below
NUM_REGS, a CACHE code of at most 2. -/
def FieldsOk (c : Config) (w : Word) : Opcode → Prop
  | .add | .sub | .slt => bits 10 6 w = 0 ∧ rsField w < c.numRegs ∧ rtField w < c.numRegs ∧ rdField w < c.numRegs
  | .addi | .subi | .bne | .lw | .sw => rsField w < c.numRegs ∧ rtField w < c.numRegs
  | .j | .jal => True
  | .cache => rsField w = 0 ∧ rtField w = 0 ∧ immField w ≤ 2
  | .nop => rsField w = 0 ∧ rtField w = 0 ∧ rdField w = 0 ∧ bits 10 6 w = 0
  | .halt => targetField w = 0

/-- The must-be-zero column of R76. -/
theorem Opcode.row_mustBeZero (o : Opcode) : o.row.mustBeZero = match o with
    | .add | .sub | .slt => [(10, 6)]
    | .cache => [(25, 21), (20, 16)]
    | .nop => [(25, 21), (20, 16), (15, 11), (10, 6)]
    | .halt => [(25, 0)]
    | _ => [] := by
  cases o <;> rfl

/-- Every 16-bit field holds an immediate in range. -/
theorem immInRange_sext16 (w : Word) : immInRange (sext16 (immField w)) = true := by
  obtain ⟨-, -, -, -, -, himm, -⟩ := field_bounds w
  rw [immInRange_iff, sext16]
  split <;> omega

/-- Every 26-bit field holds a target in range. -/
theorem targetInRange_targetField (w : Word) : targetInRange (targetField w) = true := by
  obtain ⟨-, -, -, -, -, -, ht⟩ := field_bounds w
  exact targetInRange_iff.2 ht

theorem codeInRange_zext16 {v : Nat} : codeInRange (zext16 v) = true ↔ v ≤ 2 := by
  simp only [codeInRange, zext16, Bool.or_eq_true, beq_iff_eq]
  omega

/-- The decoder's two checks of a row, read as one condition on the fields. -/
theorem fieldsOk_iff : FieldsOk c w o ↔ o.row.zerosHold w = true ∧ (instrOfFields o w).wf c = true := by
  rw [zerosHold_iff]
  cases o
  case add | sub | slt =>
    simp only [FieldsOk, Opcode.row_mustBeZero, instrOfFields, Instr.wf, Bool.and_eq_true, regInRange_iff,
      List.forall_mem_singleton]
    tauto
  case addi | subi | bne | lw | sw =>
    simp only [FieldsOk, Opcode.row_mustBeZero, instrOfFields, Instr.wf, Bool.and_eq_true, regInRange_iff,
      immInRange_sext16, List.not_mem_nil, false_implies, implies_true]
    tauto
  case j | jal => exact iff_of_true trivial ⟨fun _ hf => (List.not_mem_nil hf).elim, targetInRange_targetField w⟩
  case cache =>
    simp only [FieldsOk, Opcode.row_mustBeZero, instrOfFields, Instr.wf, codeInRange_zext16, List.forall_mem_cons,
      List.not_mem_nil, false_implies, implies_true, and_true, and_assoc]
    rfl
  case nop =>
    simp only [FieldsOk, Opcode.row_mustBeZero, instrOfFields, Instr.wf, List.forall_mem_cons, List.not_mem_nil,
      false_implies, implies_true, and_true]
    rfl
  case halt =>
    simp only [FieldsOk, Opcode.row_mustBeZero, instrOfFields, Instr.wf, List.forall_mem_singleton, and_true]
    rfl

/-- A word of a row is malformed exactly where its fields are not as the row wants them. -/
theorem malformed_iff_not_fieldsOk (hs : o.row.selects w = true) :
    (∃ o', decodeWord c w = .malformed o') ↔ ¬ FieldsOk c w o := by
  rw [decodeWord_of_row o.row_mem hs, Opcode.row_opcode, fieldsOk_iff, ← Bool.and_eq_true]
  split
  · next h => simp [h]
  · next h => simp [h]

/-- R78's malformations, told from the fields alone: shamt of a register word; another field of NOP; a register of an
R word, of an I word; a field of CACHE; the field of HALT. -/
def HasMalformedField (c : Config) (w : Word) : Prop :=
  (opField w = 0x00 ∧ bits 10 6 w ≠ 0) ∨
  (opField w = 0x00 ∧ functField w = 0x00 ∧ (rsField w ≠ 0 ∨ rtField w ≠ 0 ∨ rdField w ≠ 0)) ∨
  (opField w = 0x00 ∧ functField w ≠ 0x00 ∧
    (c.numRegs ≤ rsField w ∨ c.numRegs ≤ rtField w ∨ c.numRegs ≤ rdField w)) ∨
  (opField w ∈ [0x05, 0x08, 0x18, 0x23, 0x2B] ∧ (c.numRegs ≤ rsField w ∨ c.numRegs ≤ rtField w)) ∨
  (opField w = 0x2F ∧ (rsField w ≠ 0 ∨ rtField w ≠ 0 ∨ 2 < immField w)) ∨
  (opField w = 0x3F ∧ targetField w ≠ 0)

/-- In a word of a row they are the fields that row does not want. -/
theorem hasMalformedField_iff (hs : o.row.selects w = true) : HasMalformedField c w ↔ ¬ FieldsOk c w o := by
  obtain ⟨hop, hfunct⟩ := selects_iff.1 hs
  cases o
  case nop | add | sub | slt =>
    have hf := hfunct _ rfl
    simp [HasMalformedField, FieldsOk, hop, hf, Opcode.row, opTable]
    omega
  case addi | subi | bne | lw | sw | cache =>
    simp [HasMalformedField, FieldsOk, hop, Opcode.row, opTable]
    omega
  case j | jal | halt => simp [HasMalformedField, FieldsOk, hop, Opcode.row, opTable]

/-- Settles O11: the row of the word, its fields, and the raise of a fetched malformed entry. -/
theorem malformedWordsRaiseDecodeError : Obligations.MalformedWordsRaiseDecodeError := by
  refine fun c w => ⟨?_, ?_⟩
  · rcases unknown_or_selects c w with hu | ⟨o, hs⟩
    · simp [hu]
    rw [malformed_iff_not_fieldsOk hs, ← hasMalformedField_iff hs, and_iff_right (not_unknown_of_selects hs)]
    simp only [HasMalformedField, ← toNat_op, ← toNat_rs, ← toNat_rt, ← toNat_rd, ← toNat_shamt, ← toNat_funct,
      ← toNat_imm, ← toNat_target, List.mem_cons, List.not_mem_nil, ne_eq, ← BitVec.toNat_inj, BitVec.toNat_ofNat]
  · rintro o hd s rfl hc hr he
    exact Machine.step_raises hr hc he (by rw [Machine.runEntry, decodeEntry, hd])

end Sys2Proof
end

/-! ### Arithmetic and compare (40_arithmetic.md R88 to R92) -/
section
namespace Sys2Proof.Machine

variable {s : State}

/-! #### The word of an instruction, laid out by the spec's formats -/

/-- The R-format word of R73 decodes to the instruction it is the word of. -/
theorem decodeWord_rWord {c : Config} (hc : c.wf = true) {i : Instr} {rs rt rd f : Nat} (hi : i.wf c = true)
    (he : encode i = rFormat rs rt rd f) (hf : f < 64)
    (hr : (regInRange c rd && regInRange c rs && regInRange c rt) = true) :
    decodeWord c (rWord (BitVec.ofNat 5 rs) (BitVec.ofNat 5 rt) (BitVec.ofNat 5 rd) 0#5 (BitVec.ofNat 6 f)) =
      .instr i := by
  obtain ⟨hd, hs, ht⟩ := Laws.RecordForm.three hr
  rw [rWord_ofNat hc hs ht hd hf, ← he]
  exact decodeOfEncodeIsTheInstruction c i hc hi

/-- So does the I-format word of R74. -/
theorem decodeWord_iWord {c : Config} (hc : c.wf = true) {i : Instr} {op rs rt : Nat} {n : Int} (hi : i.wf c = true)
    (he : encode i = iFormat op rs rt (imm16 n)) (ho : op < 64)
    (hs : regInRange c rs = true) (ht : regInRange c rt = true) :
    decodeWord c (iWord (BitVec.ofNat 6 op) (BitVec.ofNat 5 rs) (BitVec.ofNat 5 rt) (BitVec.ofInt 16 n)) =
      .instr i := by
  rw [iWord_ofNat hc hs ht n ho, ← he]
  exact decodeOfEncodeIsTheInstruction c i hc hi

/-! #### An instruction whose whole meaning is one register write -/

/-- The result is in the destination, the pc is at the next instruction, and all else is as before. -/
theorem exec_writes_register (h : Inv s) {i : Instr} {rd : Nat} {v : Word} (hd : regInRange s.cfg rd = true)
    (he : exec i s = .next (finishWith s rd v)) :
    ∃ t, exec i s = .next t ∧ RegWritten t rd v ∧ t.pc = s.pc + 4#32 ∧ KeepsAllBut (some rd) s t ∧
      KeepsMemory s t := by
  have hlen : rd < s.regs.length := h.regsLength ▸ regInRange_iff.1 hd
  exact ⟨_, he, regWritten_finishWith s hlen v, nextPc_eq s, keepsAllBut_finishWith s rd v,
    keepsMemory_finishWith s rd v⟩

/-- Settles O29: ADD's word is an R-format one, and its meaning writes the wrapped sum. -/
theorem addWritesTheWrappedSum : Obligations.AddWritesTheWrappedSum := by
  intro s rd rs rt h hwf
  obtain ⟨hd, -, -⟩ := Laws.RecordForm.three hwf
  exact ⟨decodeWord_rWord h.cfgWf hwf rfl (by decide) hwf, exec_writes_register h hd rfl⟩

/-- Settles O30: ADDI's word is an I-format one, and its meaning writes the wrapped sum. -/
theorem addiWritesTheWrappedSum : Obligations.AddiWritesTheWrappedSum := by
  intro s rt rs immd h hwf
  obtain ⟨ht, hs, -⟩ := Laws.RecordForm.two hwf
  exact ⟨decodeWord_iWord h.cfgWf hwf rfl (by decide) hs ht, exec_writes_register h ht rfl⟩

/-- Settles O31: SUB's word is an R-format one, and its meaning writes the wrapped difference. -/
theorem subWritesTheWrappedDifference : Obligations.SubWritesTheWrappedDifference := by
  intro s rd rs rt h hwf
  obtain ⟨hd, -, -⟩ := Laws.RecordForm.three hwf
  exact ⟨decodeWord_rWord h.cfgWf hwf rfl (by decide) hwf, exec_writes_register h hd rfl⟩

/-- Settles O32: SUBI's word is an I-format one with the destination in `rt`, and its meaning writes the wrapped
difference. -/
theorem subiWritesTheWrappedDifference : Obligations.SubiWritesTheWrappedDifference := by
  intro s rd rs immd h hwf
  obtain ⟨hd, hs, -⟩ := Laws.RecordForm.two hwf
  exact ⟨decodeWord_iWord h.cfgWf hwf rfl (by decide) hs hd, exec_writes_register h hd rfl⟩

/-- Settles O33: SLT's word is an R-format one, and its meaning writes the outcome of the signed compare. -/
theorem sltWritesTheSignedCompare : Obligations.SltWritesTheSignedCompare := by
  intro s rd rs rt h hwf
  obtain ⟨hd, -, -⟩ := Laws.RecordForm.three hwf
  exact ⟨decodeWord_rWord h.cfgWf hwf rfl (by decide) hwf, exec_writes_register h hd rfl⟩

end Sys2Proof.Machine
end

/-! ### Control transfer (41_control.md R94 to R96) -/
section
namespace Sys2Proof.Machine

variable {s t u : State}

/-! #### The next fetch -/

/-- A running core with its pc past the end of the program halts, or raises ExecutionError (30_encoding.md R81). -/
theorem Inv.endIsChecked (h : Inv t) : EndIsChecked t := by
  intro hr hl
  rw [step_of_running hr h.cfgWf, stepRunning, fetch_past_end hl]
  split_ifs
  · obtain ⟨v, hv, -⟩ := flushIfOn_inv h
    obtain ⟨-, -, -, hpc, -⟩ := (flushIfOn_only hv).fields
    exact ⟨Machine.setHalted v, by rw [hv]; rfl, rfl, hpc⟩
  · exact ⟨_, rfl, raised_raiseError _ t⟩

/-- The state an instruction leaves without touching the status is checked by the next step: where that step is taken,
the instruction began without an error record, and so kept the invariant. -/
theorem endIsChecked_of_exec (h : Inv s) {i : Instr} (he : exec i s = .next t) (hst : t.status = s.status) :
    EndIsChecked t := by
  intro hr
  have hs : ∀ r, s.status ≠ .error r := fun r hs => by rw [← hst, hr] at hs; cases hs
  exact (h.of_exec hs he).endIsChecked hr

/-! #### The frame of a control transfer -/

theorem KeepsAllBut.refl (d : Option Nat) (s : State) : KeepsAllBut d s s := ⟨rfl, rfl, rfl, fun _ _ => rfl⟩

theorem KeepsMemory.refl (s : State) : KeepsMemory s s := ⟨rfl, rfl, fun _ => rfl⟩

theorem keepsAllBut_writeReg (s : State) (rd : Nat) (v : Word) : KeepsAllBut (some rd) s (writeReg s rd v) :=
  ⟨rfl, rfl, rfl, fun _ hr => readReg_writeReg_ne s (fun h => hr (congrArg some h)) v⟩

theorem keepsMemory_writeReg (s : State) (rd : Nat) (v : Word) : KeepsMemory s (writeReg s rd v) :=
  ⟨rfl, rfl, fun _ => rfl⟩

theorem KeepsAllBut.setPc {d : Option Nat} (h : KeepsAllBut d s u) (p : Word) :
    KeepsAllBut d s (Machine.setPc u p) := ⟨h.cfg, h.imem, h.status, h.regs⟩

theorem KeepsMemory.setPc (h : KeepsMemory s u) (p : Word) : KeepsMemory s (Machine.setPc u p) :=
  ⟨h.cacheOn, h.lines, h.words⟩

/-- An instruction that ends by setting the pc keeps what came before kept, and leaves the target to the next fetch. -/
theorem exec_setPc_frame (h : Inv s) {i : Instr} {d : Option Nat} {p : Word} (hk : KeepsAllBut d s u)
    (hm : KeepsMemory s u) (he : exec i s = .next (setPc u p)) :
    KeepsAllBut d s (setPc u p) ∧ KeepsMemory s (setPc u p) ∧ EndIsChecked (setPc u p) :=
  ⟨hk.setPc p, hm.setPc p, endIsChecked_of_exec h he hk.status⟩

/-! #### Branch -/

/-- Either way BNE sets the pc and nothing else. -/
theorem execBne_eq_setPc (s : State) (rs rt : Nat) (offset : Int) :
    exec (.bne rs rt offset) s =
      .next (setPc s (if registersDiffer s rs rt then branchTarget s offset else nextPc s)) := by
  cases hd : registersDiffer s rs rt <;> simp [exec, execBne, hd, advancePc]

/-- Settles O34: BNE's word is an I-format one, and its meaning sets the pc by the compare. -/
theorem bneBranchesWhenTheRegistersDiffer : Obligations.BneBranchesWhenTheRegistersDiffer := by
  intro s rs rt offset h hwf
  obtain ⟨hs, ht, -⟩ := Laws.RecordForm.two hwf
  have he := execBne_eq_setPc s rs rt offset
  have hpc := execBne_pc he
  exact ⟨decodeWord_iWord h.cfgWf hwf rfl (by decide) hs ht, _, he, fun hne => hpc.trans (if_neg hne),
    fun heq => hpc.trans (if_pos heq), exec_setPc_frame h (.refl none s) (.refl s) he⟩

/-! #### Jumps -/

/-- The J-format word of R75 decodes to the instruction it is the word of. -/
theorem decodeWord_jWord {c : Config} (hc : c.wf = true) {i : Instr} {op target : Nat} (hi : i.wf c = true)
    (he : encode i = jFormat op target) (ho : op < 64) (ht : targetInRange target = true) :
    decodeWord c (jWord (BitVec.ofNat 6 op) (BitVec.ofNat 26 target)) = .instr i := by
  rw [jWord_ofNat ht ho, ← he]
  exact decodeOfEncodeIsTheInstruction c i hc hi

/-- A target in range is reached without a wrap: four times a 26-bit number is below 2^28 (R95). -/
theorem uint_jumpTarget {target : Nat} (ht : targetInRange target = true) : uint (jumpTarget target) = target * 4 := by
  have hlt := targetInRange_iff.1 ht
  rw [jumpTarget_eq, uint, BitVec.toNat_ofNat, Nat.mod_eq_of_lt (by omega)]

/-- Settles O35: J's word is a J-format one, and its meaning sets the pc and nothing else. -/
theorem jumpSetsThePc : Obligations.JumpSetsThePc := by
  intro s target h hwf
  exact ⟨decodeWord_jWord h.cfgWf hwf rfl (by decide) hwf, _, rfl, uint_jumpTarget hwf,
    exec_setPc_frame h (i := .j target) (.refl none s) (.refl s) rfl⟩

/-- The link register is among the at least eight of R8, and is not register 0. -/
theorem readReg_writeReg_linkReg (h : Inv s) (v : Word) : readReg (writeReg s linkReg v) linkReg = v := by
  have hlen : linkReg < s.regs.length := by
    have := (Config.wf_iff.1 h.cfgWf).1
    rw [h.regsLength, linkReg]
    omega
  rw [readReg_writeReg_self s hlen, if_neg]
  simp [discards_iff, linkReg]

/-- Settles O36: JAL's word is a J-format one, and its meaning sets the pc over the write of the link. -/
theorem jumpAndLinkWritesRegisterSeven : Obligations.JumpAndLinkWritesRegisterSeven := by
  intro s target h hwf
  have hlink : readReg (writeReg s linkReg (linkValue s)) linkReg = s.pc + 4#32 :=
    (readReg_writeReg_linkReg h _).trans (nextPc_eq s)
  exact ⟨decodeWord_jWord h.cfgWf hwf rfl (by decide) hwf, _, rfl, hlink, uint_jumpTarget hwf,
    exec_setPc_frame h (i := .jal target) (keepsAllBut_writeReg s linkReg _) (keepsMemory_writeReg s linkReg _) rfl⟩

end Sys2Proof.Machine
end

/-! ### Loads and stores (42_loadstore.md R100, R101) -/
section
namespace Sys2Proof.Machine

variable {s t u : State}

/-! #### The frame of an access -/

theorem CacheOnly.keepsAllBut (h : CacheOnly s u) (d : Option Nat) : KeepsAllBut d s u := by
  obtain ⟨hcfg, himem, -, -, hstatus, -, -⟩ := h.fields
  exact ⟨hcfg, himem, hstatus, fun r _ => h.readReg r⟩

theorem KeepsAllBut.trans {d : Option Nat} (h : KeepsAllBut d s u) (h' : KeepsAllBut d u t) : KeepsAllBut d s t :=
  ⟨h'.cfg.trans h.cfg, h'.imem.trans h.imem, h'.status.trans h.status, fun r hr => (h'.regs r hr).trans (h.regs r hr)⟩

/-- A change of the cache and the MemoryBus, then the write of one register: everything else of the core is kept. -/
theorem CacheOnly.keepsAllBut_finishWith (h : CacheOnly s u) (rd : Nat) (v : Word) :
    KeepsAllBut (some rd) s (finishWith u rd v) :=
  (h.keepsAllBut _).trans (Machine.keepsAllBut_finishWith u rd v)

/-! #### With the cache off -/

/-- Settles O37: LW's word is an I-format one, and its meaning is one register write of the MemoryBus word. -/
theorem lwWithTheCacheOff : Obligations.LwWithTheCacheOff := by
  intro s rt rs offset h hwf ho ea h4 h0 hlt
  have hb : validAddr s.cfg (effectiveAddress s rs offset) = true := validAddr_iff.2 ⟨h4, h0, hlt⟩
  obtain ⟨ht, hs, -⟩ := Laws.RecordForm.two hwf
  exact ⟨decodeWord_iWord h.cfgWf hwf rfl (by decide) hs ht,
    exec_writes_register h ht (exec_lw_of_memRead (memRead_off ho hb))⟩

/-- Settles O39: SW's word is an I-format one, and its meaning is one write of the MemoryBus. -/
theorem swWithTheCacheOff : Obligations.SwWithTheCacheOff := by
  intro s rt rs offset h hwf ho ea h4 h0 hlt
  have hb : validAddr s.cfg (effectiveAddress s rs offset) = true := validAddr_iff.2 ⟨h4, h0, hlt⟩
  obtain ⟨ht, hs, -⟩ := Laws.RecordForm.two hwf
  have hread := Memory.read_write h.memWf (wordIndex ea) (readReg s rt)
  exact ⟨decodeWord_iWord h.cfgWf hwf rfl (by decide) hs ht, _, exec_sw_of_memWrite (memWrite_off ho hb _),
    (hread _).trans (if_pos rfl), fun w hw => (hread w).trans (if_neg (Ne.symm hw)), nextPc_eq s,
    ⟨rfl, rfl, rfl, fun _ _ => rfl⟩, rfl, rfl⟩

/-! #### Through the cache -/

/-- The word a read through the cache answers, as claims say it (R47). -/
theorem lineWord_ensureLine (h : Inv s) {b : Int} (hb : validAddr s.cfg b = true) (he : ensureLine s b = some u) :
    lineWord u b = lineAfterAccess s b (offsetOf s.cfg b) := by
  obtain ⟨u', he', -, -, -, -, -, -, -, hdata⟩ := ensureLine_effect h hb
  obtain rfl : u' = u := Option.some.inj (he'.symm.trans he)
  rw [lineWord, (ensureLine_only he).fields.1]
  exact hdata _ (offsetOf_lt h.cfgWf b)

/-- Word by word, a line after the write of one of its words (R48). -/
theorem CacheLine.getD_written (l : CacheLine) {o : Nat} (ho : o < l.data.length) (v : Word) (o' : Nat) :
    (l.written o v).data.getD o' 0#32 = if o' = o then v else l.data.getD o' 0#32 := by
  by_cases hoo : o' = o
  · subst hoo
    simp [CacheLine.written, ho]
  · simp [CacheLine.written, hoo, List.getElem?_set_ne (Ne.symm hoo)]

/-- Settles O38: what `ensureLine` leaves, with the line's word written to the register. -/
theorem lwThroughTheCache : Obligations.LwThroughTheCache := by
  intro s rt rs offset h hwf ho ea h4 h0 hlt
  have hb : validAddr s.cfg ea = true := validAddr_iff.2 ⟨h4, h0, hlt⟩
  obtain ⟨ht, -, -⟩ := Laws.RecordForm.two hwf
  obtain ⟨u, he, -, hhit, hmem, hother, hvalid, htag, hclean, hdata⟩ := ensureLine_effect h hb
  have honly := ensureLine_only he
  obtain ⟨-, -, hregs, -, -, hon, -⟩ := honly.fields
  have hread := (memRead_on ho ea).trans (cacheRead_eq hb he)
  rw [lineWord_ensureLine h hb he] at hread
  have hlen : rt < u.regs.length := by
    rw [hregs, h.regsLength]
    exact regInRange_iff.1 ht
  have hlines : hits s ea = true → u.lines = s.lines := fun hh => by rw [hhit hh]
  exact ⟨_, exec_lw_of_memRead hread, regWritten_finishWith u hlen _, honly.nextPc_eq,
    honly.keepsAllBut_finishWith rt _, hon.trans ho, hmem, hlines, hother, hvalid, htag, hclean, hdata⟩

/-- Settles O40: what `ensureLine` leaves, with one word of its line written and the line marked dirty. -/
theorem swThroughTheCache : Obligations.SwThroughTheCache := by
  intro s rt rs offset h hwf ho ea h4 h0 hlt
  have hb : validAddr s.cfg ea = true := validAddr_iff.2 ⟨h4, h0, hlt⟩
  obtain ⟨u, he, hu, -, hmem, hother, hvalid, htag, -, hdata⟩ := ensureLine_effect h hb
  obtain ⟨hcfg, -, -, -, -, hon, -⟩ := (ensureLine_only he).fields
  have hwrite := (memWrite_on ho ea _).trans (cacheWrite_eq hb he (readReg s rt))
  have honly := memWrite_only hwrite
  have hi : indexOf s.cfg ea < u.cfg.numLines := hcfg ▸ indexOf_lt h.cfgWf ea
  -- the line of `ea` in the state the store leaves
  have hline := lineAt_setLine_self (hu.linesCount ▸ hi)
    ((lineAt u (indexOf s.cfg ea)).written (offsetOf s.cfg ea) (readReg s rt))
  refine ⟨_, exec_sw_of_memWrite hwrite, honly.nextPc_eq, (honly.keepsAllBut none).setPc _, hon.trans ho, hmem,
    fun i hne => (lineAt_setLine_ne (Ne.symm hne) _).trans (hother i hne),
    (congrArg CacheLine.valid hline).trans hvalid, (congrArg CacheLine.tag hline).trans htag,
    congrArg CacheLine.dirty hline, fun o hoff => ?_⟩
  obtain ⟨hlen, -, -⟩ := CacheLine.wf_iff.1 (hu.lineWf hi)
  have hoffset : offsetOf s.cfg ea < (lineAt u (indexOf s.cfg ea)).data.length := by
    rw [hlen, hcfg]
    exact offsetOf_lt h.cfgWf ea
  rw [← hdata o hoff]
  exact (congrArg (·.data.getD o 0#32) hline).trans (CacheLine.getD_written _ hoffset _ o)

end Sys2Proof.Machine
end

/-! ### System (43_system.md R103 to R105) -/
section
namespace Sys2Proof.Machine

variable {s u t : State}

/-! #### What a flush leaves, as claims say it -/

/-- Under the invariant only a valid line is dirty, so cleaning clears the dirty bit whatever it was (R30, R50). -/
theorem CacheLine.cleaned_eq_of_wf {c : Config} {l : CacheLine} (hl : l.wf c = true) :
    l.cleaned = { l with dirty := false } := by
  obtain ⟨-, -, hdv⟩ := CacheLine.wf_iff.1 hl
  obtain ⟨valid, dirty, tag, data⟩ := l
  cases dirty with
  | false => simp [CacheLine.cleaned]
  | true =>
    have hv : valid = true := hdv rfl
    simp [CacheLine.cleaned, hv]

/-- A flush writes each word of a dirty line's block: the word's own address fields lead back to that line. -/
theorem cacheFlush_written (h : Inv s) (hf : cacheFlush s = some u) {i o : Nat} (hi : i < s.cfg.numLines)
    (ho : o < s.cfg.blockSize) (hd : lineDirty s i) :
    u.mem.read (baseWord s.cfg (lineAt s i).tag i + o) = lineData s i o := by
  obtain ⟨hvalid, hdirty⟩ := hd
  obtain ⟨m', he, -, -, hread⟩ := cacheFlush_spec h
  obtain rfl : flushedState s m' = u := Option.some.inj (he.symm.trans hf)
  obtain ⟨hoff, hline, htag⟩ := decompose_blockWord h.cfgWf (t := (lineAt s i).tag) hi ho
  have hline : wordLine s.cfg (baseWord s.cfg (lineAt s i).tag i + o) = i := hline
  have hhit : hits s ((baseWord s.cfg (lineAt s i).tag i + o) * 4 : Nat) = true :=
    (hits_word s _).2 ⟨hline.symm ▸ hvalid, hline.symm ▸ htag.symm⟩
  have hw := hread (baseWord s.cfg (lineAt s i).tag i + o)
  rw [indexOf_word, lineWord_word, hline, hoff, if_pos ⟨hhit, hdirty⟩] at hw
  exact hw

/-- `CacheFlush()` is carried out, and leaves what R50 says. -/
theorem cacheFlush_flushed (h : Inv s) : ∃ u, cacheFlush s = some u ∧ Flushed s u := by
  obtain ⟨m', he, -⟩ := cacheFlush_spec h
  refine ⟨flushedState s m', he, fun i o hi ho => cacheFlush_written h he hi ho, fun w hw => ?_, ?_⟩
  · by_contra hne
    obtain ⟨i, o, hi, hd, hio, -⟩ := cacheFlush_changed h he hne
    exact hw i o hi hd hio
  · exact List.map_congr_left fun l hl => CacheLine.cleaned_eq_of_wf (h.linesWf l hl)

/-- What a flush left is there whatever else of the core then changes. -/
theorem Flushed.congr (h : Flushed s u) (hl : t.lines = u.lines) (hm : t.mem = u.mem) : Flushed s t :=
  ⟨hm ▸ h.written, hm ▸ h.unwritten, hl.trans h.cleaned⟩

/-! #### CACHE 2 -/

/-- Settles O43: CACHE 2 executes the flush, and the flush of a flushed state changes nothing. -/
theorem cacheTwoFlushesOnce : Obligations.CacheTwoFlushesOnce := by
  intro s h
  obtain ⟨u, hu, hflushed⟩ := cacheFlush_flushed h
  have honly := cacheFlush_only hu
  obtain ⟨-, -, -, -, -, hon, -⟩ := honly.fields
  have hagain : cacheFlush (advancePc u) = some (advancePc u) := by
    rw [cacheFlush_advancePc, flushIsIdempotent s u h hu, Option.map_some]
  exact ⟨decodeWord_cache s.cfg (code := 2) rfl, _, exec_cache_two hu, hflushed.congr rfl rfl, hon, honly.nextPc_eq,
    (honly.keepsAllBut none).setPc _, _, exec_cache_two hagain, fun _ => rfl⟩

/-! #### NOP -/

/-- Of the words of NOP's row, the zero word alone has every field zero (R77, R78). -/
theorem decodeWord_of_nop_row {c : Config} {w : Word} (hs : Opcode.nop.row.selects w = true) :
    decodeWord c w = if w = 0#32 then .instr .nop else .malformed .nop := by
  have hz : Opcode.nop.row.zerosHold w = true ↔ w = 0#32 :=
    ⟨fun hz => (encode_instrOfFields hs hz).symm, fun hw => hw ▸ by decide⟩
  rw [decodeWord_of_row Opcode.nop.row_mem hs]
  simp only [← hz, Opcode.row_opcode, instrOfFields, Instr.wf, Bool.and_true]

/-- Settles O44: the words with op 0 and funct 0 are those of NOP's row, and NOP's meaning sets the pc. -/
theorem nopOnlyAdvancesThePc : Obligations.NopOnlyAdvancesThePc := by
  intro s
  refine ⟨decodeWord_of_nop_row (by decide), fun w hop hfunct hne => ?_, advancePc s, rfl, nextPc_eq s,
    (KeepsAllBut.refl none s).setPc _, (KeepsMemory.refl s).setPc _⟩
  have hs : Opcode.nop.row.selects w = true :=
    selects_iff.2 ⟨by rw [← toNat_op, hop]; rfl, fun f hf => by cases hf; rw [← toNat_funct, hfunct]; rfl⟩
  rw [decodeWord_of_nop_row hs, if_neg hne]

/-! #### HALT -/

/-- HALT commits the state its flush leaves, halted. -/
theorem exec_halt_of_flushIfOn (hf : flushIfOn s = some u) : exec .halt s = .next (haltedState u) := by
  simp [exec, execHalt, hf, commit]

/-- The halting flush is R50's with the cache on, and touches nothing with the cache off. -/
theorem flushIfOn_effect (h : Inv s) :
    ∃ u, flushIfOn s = some u ∧ if s.cacheOn = true then Flushed s u else KeepsMemory s u := by
  cases ho : s.cacheOn with
  | false => exact ⟨s, flushIfOn_off ho, KeepsMemory.refl s⟩
  | true =>
    obtain ⟨u, hu, hflushed⟩ := cacheFlush_flushed h
    exact ⟨u, by simp [flushIfOn, ho, hu], hflushed⟩

/-- A halted core takes no step (60_exceptions.md R113). -/
theorem step_ne_next_of_halted (hs : s.status = .halted) (t : State) : step s ≠ .next t := by
  intro h
  obtain ⟨hr, -⟩ := step_next_running h
  rw [hs] at hr
  cases hr

/-- Settles O45: HALT's word is a J-format one, and its meaning halts the state the halting flush leaves. -/
theorem haltFlushesAndStops : Obligations.HaltFlushesAndStops := by
  intro s h
  obtain ⟨u, hu, heffect⟩ := flushIfOn_effect h
  have honly := flushIfOn_only hu
  obtain ⟨hcfg, himem, -, hpc, -, hon, -⟩ := honly.fields
  obtain ⟨hstatus, hcfg', himem', hon', hlines', hmem', hregs', -⟩ := haltedState_fields u
  refine ⟨decodeWord_jWord h.cfgWf (i := .halt) rfl rfl (by decide) (by decide), haltedState u,
    exec_halt_of_flushIfOn hu, hstatus, ?_, ?_, hon'.trans hon, fun r => ?_, hcfg'.trans hcfg, himem'.trans himem,
    step_ne_next_of_halted hstatus⟩
  · rw [haltedState_pc, hcfg, hpc]
  · split at heffect
    · next ho => rw [if_pos ho]; exact heffect.congr hlines' hmem'
    · next ho =>
      rw [if_neg ho]
      exact ⟨hon'.trans hon, hlines'.trans heffect.lines, fun w => hmem' ▸ heffect.words w⟩
  · exact (readReg_congr hcfg' hregs' r).trans (honly.readReg r)

end Sys2Proof.Machine
end

/-! ### Fatal errors and halting (60_exceptions.md R107 to R116) -/
section
namespace Sys2Proof.Machine

variable {s t u : State} {i : Instr}

/-! #### Steps that end in ERROR, and steps that end in HALTED -/

/-- Of the next states of a meaning, only an error and HALT's own halted state have another status. -/
theorem ExecShape.status_cases (h : ExecShape i s t) :
    (∃ k, t = raiseError k s) ∨ t.status = s.status ∨
    ∃ u, flushIfOn s = some u ∧ i = .halt ∧ t = haltedState u := by
  cases h with
  | raised k => exact .inl ⟨k, rfl⟩
  | moved u p hu _ =>
    obtain ⟨-, -, -, -, hst, -, -⟩ := hu.fields
    exact .inr (.inl hst)
  | wrote u r v p hu _ =>
    obtain ⟨-, -, -, -, hst, -, -⟩ := hu.fields
    exact .inr (.inl hst)
  | switched on _ => exact .inr (.inl rfl)
  | halted u hu hi => exact .inr (.inr ⟨u, hu, hi, rfl⟩)

/-- A step raises an error over the state it began in, goes on running, or halts the state the halting flush leaves:
at an implicit halt or by HALT (R107, R112). -/
theorem step_status_cases (h : step s = .next t) :
    (∃ k, t = raiseError k s) ∨ t.status = .running ∨
    ∃ u, flushIfOn s = some u ∧
      (fetch s = .implicitHalt ∧ t = setHalted u ∨ currentInstr s = some .halt ∧ t = haltedState u) := by
  rcases step_shape h with hk | ⟨u, hu, ht, hf⟩ | ⟨i, hi, he⟩
  · exact .inl hk
  · exact .inr (.inr ⟨u, hu, .inl ⟨hf, ht⟩⟩)
  · rcases (exec_shape he).status_cases with hk | hst | ⟨u, hu, rfl, ht⟩
    · exact .inl hk
    · exact .inr (.inl (hst.trans (step_next_running h).1))
    · exact .inr (.inr ⟨u, hu, .inr ⟨hi, ht⟩⟩)

@[simp] theorem haltedState_status (u : State) : (haltedState u).status = .halted := (haltedState_fields u).1

theorem raiseError_of_status {k : ErrorKind} {r : ErrorRecord} (h : (raiseError k s).status = .error r) :
    r.kind = k ∧ r.pcAtFailure = s.pc := by
  cases h
  exact ⟨rfl, rfl⟩

/-- Settles O18: of the ends of a step, the one in ERROR is the state it began in with the error raised. -/
theorem errorsArePrecise : Obligations.ErrorsArePrecise := by
  intro s t r hstep ht
  rcases step_status_cases hstep with ⟨k, rfl⟩ | hrun | ⟨u, -, ⟨-, rfl⟩ | ⟨-, rfl⟩⟩
  · obtain ⟨rfl, hpc⟩ := raiseError_of_status ht
    exact ⟨raised_raiseError _ s, hpc⟩
  · simp [hrun] at ht
  · cases ht
  · simp at ht

/-- What the halting flush left is there whatever of the status and the pc then changes (R112). -/
theorem flushIfOn_effect_congr (h : Inv s) (hu : flushIfOn s = some u) (ho : t.cacheOn = u.cacheOn)
    (hl : t.lines = u.lines) (hm : t.mem = u.mem) :
    if s.cacheOn = true then Flushed s t else KeepsMemory s t := by
  obtain ⟨v, hv, heffect⟩ := flushIfOn_effect h
  obtain rfl : v = u := Option.some.inj (hv.symm.trans hu)
  split at heffect
  · next hon => rw [if_pos hon]; exact heffect.congr hl hm
  · next hoff =>
    rw [if_neg hoff]
    exact ⟨ho.trans heffect.cacheOn, hl.trans heffect.lines, fun w => hm ▸ heffect.words w⟩

/-- Settles O25: of the ends of a step, two are in HALTED, and both are what the halting flush left. -/
theorem haltedOnlyByHaltOrTheEnd : Obligations.HaltedOnlyByHaltOrTheEnd := by
  intro s t h hstep ht
  rcases step_status_cases hstep with ⟨k, rfl⟩ | hrun | ⟨u, hu, ⟨hf, rfl⟩ | ⟨hi, rfl⟩⟩
  · cases ht
  · simp [hrun] at ht
  · exact ⟨.inr (fetch_implicitHalt hf), flushIfOn_effect_congr h hu rfl rfl rfl⟩
  · obtain ⟨-, -, -, hon, hlines, hmem, -⟩ := haltedState_fields u
    exact ⟨.inl hi, flushIfOn_effect_congr h hu hon hlines hmem⟩

/-! #### The address check of LW and SW -/

/-- R37, read as where it fails. -/
theorem validAddr_eq_false_iff {c : Config} {b : Int} :
    validAddr c b = false ↔ b % 4 ≠ 0 ∨ b < 0 ∨ (c.capacity : Int) ≤ b := by
  rw [← Bool.not_eq_true, validAddr_iff]
  omega

theorem exec_lw_of_invalid {rt rs : Nat} {offset : Int}
    (hb : validAddr s.cfg (effectiveAddress s rs offset) = false) :
    exec (.lw rt offset rs) s = .next (raiseError .addressError s) := by
  simp [exec, execLw, memRead_invalid hb, commit]

theorem exec_sw_of_invalid {rt rs : Nat} {offset : Int}
    (hb : validAddr s.cfg (effectiveAddress s rs offset) = false) :
    exec (.sw rt offset rs) s = .next (raiseError .addressError s) := by
  simp [exec, execSw, memWrite_invalid hb, commit]

/-- Settles O41: an invalid address is refused on either path of the multiplexer, and the refusal is raised. -/
theorem invalidAddressRaisesAddressError : Obligations.InvalidAddressRaisesAddressError := by
  intro s rt rs offset ea hea
  have hb : validAddr s.cfg (effectiveAddress s rs offset) = false := validAddr_eq_false_iff.2 hea
  exact ⟨⟨_, exec_lw_of_invalid hb, raised_raiseError _ s⟩, ⟨_, exec_sw_of_invalid hb, raised_raiseError _ s⟩⟩

/-! #### The checks of a step, in their order (R115) -/

/-- The fourth check of R115: where the instruction is a LW or a SW, its effective address is valid. -/
def AddressOk (s : State) (i : Instr) : Prop :=
  ∀ rt offset rs, i = .lw rt offset rs ∨ i = .sw rt offset rs →
    validAddr s.cfg (effectiveAddress s rs offset) = true

/-- The three codes of a well-formed CACHE raise nothing, and neither does the flush of the third (R102, R103). -/
theorem execCache_completes (h : Inv s) {code : Int} (hk : (Instr.cache code).wf s.cfg = true) :
    ∃ t, exec (.cache code) s = .next t ∧ t.status = s.status := by
  obtain rfl | rfl | rfl : code = 0 ∨ code = 1 ∨ code = 2 := by
    simpa [Instr.wf, codeInRange, or_assoc] using hk
  · exact ⟨_, exec_cache_switch s false, rfl⟩
  · exact ⟨_, exec_cache_switch s true, rfl⟩
  · obtain ⟨m, hf, -⟩ := cacheFlush_spec h
    exact ⟨_, exec_cache_two hf, rfl⟩

/-- A well-formed instruction with a valid address completes: no fill, eviction or flush raises (R108). -/
theorem exec_completes (h : Inv s) (hr : s.status = .running) (hwf : i.wf s.cfg = true) (ha : AddressOk s i) :
    ∃ t, exec i s = .next t ∧ SafeStatus t := by
  cases i with
  | bne rs rt offset => exact ⟨_, execBne_eq_setPc s rs rt offset, .inl hr⟩
  | lw rt offset rs =>
    obtain ⟨v, u, hu, -⟩ := memRead_inv h (ha rt offset rs (.inl rfl))
    obtain ⟨-, -, -, -, hst, -, -⟩ := (memRead_only hu).fields
    exact ⟨_, exec_lw_of_memRead hu, .inl (hst.trans hr)⟩
  | sw rt offset rs =>
    obtain ⟨u, hu, -⟩ := memWrite_inv h (ha rt offset rs (.inr rfl)) (readReg s rt)
    obtain ⟨-, -, -, -, hst, -, -⟩ := (memWrite_only hu).fields
    exact ⟨_, exec_sw_of_memWrite hu, .inl (hst.trans hr)⟩
  | cache code =>
    obtain ⟨t, he, hst⟩ := execCache_completes h hwf
    exact ⟨t, he, .inl (hst.trans hr)⟩
  | halt =>
    obtain ⟨u, hu, -⟩ := flushIfOn_inv h
    exact ⟨_, exec_halt_of_flushIfOn hu, .inr (haltedState_status u)⟩
  | _ => exact ⟨_, rfl, .inl hr⟩

/-- Settles O20: the current instruction is well formed, since it was decoded, and completes. -/
theorem passingTheChecksCompletes : Obligations.PassingTheChecksCompletes := by
  intro s i h hr hi ha
  obtain ⟨e, he, hd⟩ := currentInstr_iff.1 hi
  rw [stepRunsTheDecodedInstruction s e i hr h.cfgWf (fetch_entry_iff.1 he) hd]
  exact exec_completes h hr (decodeEntry_wf hd) ha

/-- A well-formed instruction that ends in ERROR is a LW or a SW with an invalid address (R108). -/
theorem exec_error (h : Inv s) (hr : s.status = .running) (hwf : i.wf s.cfg = true) (he : exec i s = .next t)
    {r : ErrorRecord} (ht : t.status = .error r) :
    ∃ rt offset rs, (i = .lw rt offset rs ∨ i = .sw rt offset rs) ∧
      validAddr s.cfg (effectiveAddress s rs offset) = false ∧ t = raiseError .addressError s := by
  have hno : ¬ AddressOk s i := by
    intro ha
    obtain ⟨t', he', hsafe⟩ := exec_completes h hr hwf ha
    obtain rfl : t' = t := Host.Outcome.next.inj (he'.symm.trans he)
    simp [SafeStatus, ht] at hsafe
  simp only [AddressOk, not_forall, Bool.not_eq_true] at hno
  obtain ⟨rt, offset, rs, hi, hb⟩ := hno
  refine ⟨rt, offset, rs, hi, hb, Host.Outcome.next.inj (he.symm.trans ?_)⟩
  rcases hi with rfl | rfl
  · exact exec_lw_of_invalid hb
  · exact exec_sw_of_invalid hb

/-- A fetch is out of range only at an index beyond the program (R81). -/
theorem fetch_outOfRange (hf : fetch s = .outOfRange) : s.imem.length ≤ uint s.pc / 4 := by
  by_contra hlt
  have hentry := fetch_entry_iff.2 (List.getElem?_eq_getElem (not_le.1 hlt))
  rw [hf] at hentry
  cases hentry

/-- Settles O19: each check that fails raises its own kind; past decode only an invalid address is left to raise. -/
theorem errorKindFollowsTheCheckOrder : Obligations.ErrorKindFollowsTheCheckOrder := by
  intro s t r h hstep ht
  obtain ⟨hr, hc⟩ := step_next_running hstep
  rcases step_running_cases hr hc with
    ⟨hf, h1⟩ | ⟨-, h1⟩ | ⟨e, he, hd, h1⟩ | ⟨e, o, he, hd, h1⟩ | ⟨e, i, he, hd, h1⟩ <;> rw [h1] at hstep
  · cases hstep
    exact .inl ⟨(raiseError_of_status ht).1, fetch_outOfRange hf⟩
  · obtain ⟨u, hu, -⟩ := flushIfOn_inv h
    rw [hu] at hstep
    cases hstep
    cases ht
  · cases hstep
    exact .inr (.inl ⟨e, fetch_entry_iff.1 he, hd, (raiseError_of_status ht).1⟩)
  · cases hstep
    exact .inr (.inr (.inl ⟨e, o, fetch_entry_iff.1 he, hd, (raiseError_of_status ht).1⟩))
  · obtain ⟨rt, offset, rs, hi, hb, rfl⟩ := exec_error h hr (decodeEntry_wf hd) hstep ht
    refine .inr (.inr (.inr ⟨rt, offset, rs, ?_, hb, (raiseError_of_status ht).1⟩))
    rw [currentInstr_iff.2 ⟨e, he, hd⟩]
    exact hi.imp (congrArg some) (congrArg some)

/-- Settles O17: an entry that decodes to no instruction runs as the raise of its kind. -/
theorem undecodableEntriesRaise : Obligations.UndecodableEntriesRaise := by
  intro s e hr hc he
  exact ⟨fun hd => step_raises hr hc he (by rw [runEntry, hd]),
    fun o hd => step_raises hr hc he (by rw [runEntry, hd])⟩

/-- Settles O16: past the end a fetch is an implicit halt, which halts what the flush left, or out of range. -/
theorem fetchPastTheEndIsChecked : Obligations.FetchPastTheEndIsChecked := by
  intro s h hr hl
  refine ⟨fun hend => ?_, fun hno => ?_⟩
  · obtain ⟨u, hu, -⟩ := flushIfOn_inv h
    have honly := flushIfOn_only hu
    obtain ⟨hcfg, himem, -, hpc, -, hon, -⟩ := honly.fields
    refine ⟨setHalted u, ?_, rfl, hpc, hon, honly.readReg, hcfg, himem, flushIfOn_effect_congr h hu rfl rfl rfl⟩
    rw [step_of_running hr h.cfgWf, stepRunning, fetch_past_end hl, if_pos hend, hu]
    rfl
  · obtain ⟨t, hstep, ht⟩ := h.endIsChecked hr hl
    rw [if_neg hno] at ht
    exact ⟨t, hstep, ht⟩

/-! #### Terminal states (R113) -/

/-- A run from a state without a next one stays there. -/
theorem runCeiling_of_no_next (h : ∀ t, step s ≠ .next t) (n : Nat) : State.runCeiling n s = s := by
  cases n with
  | zero => rfl
  | succ n =>
    rw [State.runCeiling]
    split
    · next t ht => exact absurd ht (h t)
    · rfl
    · rfl

/-- Settles O21: only a running core has a next state, and a run goes on through next states only. -/
theorem terminalStatesAreFinal : Obligations.TerminalStatesAreFinal := by
  intro s hs
  have hno : ∀ t, step s ≠ .next t := fun t h => hs (step_next_running h).1
  exact ⟨hno, runCeiling_of_no_next hno⟩

end Sys2Proof.Machine
end

/-! ### The host's ports: run control and the snapshots (70_reset_and_hazards.md R130, R133 to R136) -/
section
namespace Sys2Proof.Machine

variable {s t : State}

/-! #### One step of a run -/

/-- A step that commits its memory accesses always answers a next state. -/
theorem commit_next (s : State) (r : Option State) : ∃ t, commit s r = .next t := by
  cases r with
  | none => exact ⟨_, rfl⟩
  | some t => exact ⟨t, rfl⟩

/-- A running core always has a next state: neither a fault nor a refusal stops it (R130). -/
theorem step_next_of_running (hr : s.status = .running) (hc : s.cfg.wf = true) : ∃ t, step s = .next t := by
  rcases step_running_cases hr hc with ⟨-, h⟩ | ⟨-, h⟩ | ⟨e, -, -, h⟩ | ⟨e, o, -, -, h⟩ | ⟨e, i, -, -, h⟩ <;> rw [h]
  · exact ⟨_, rfl⟩
  · exact commit_next s _
  · exact ⟨_, rfl⟩
  · exact ⟨_, rfl⟩
  · exact exec_next i s

/-! #### The ceiling (R136) -/

theorem runCeiling_succ_of_next (h : step s = .next t) (n : Nat) :
    State.runCeiling (n + 1) s = State.runCeiling n t := by
  rw [State.runCeiling, h]

theorem run_succ_of_next {M : Host.Core} {s t : M.State} (h : M.step s = .next t) (n : Nat) :
    M.run (n + 1) s = M.run n t := by
  rw [Host.Core.run, h]

/-- A core that is not running is where its run ends, whatever the ceiling. -/
theorem runCeiling_of_not_running (hs : s.status ≠ .running) (n : Nat) : State.runCeiling n s = s :=
  (terminalStatesAreFinal s hs).2 n

/-- A run under a ceiling can be stopped at a lower one and gone on with. -/
theorem runCeiling_add (n m : Nat) (s : State) :
    State.runCeiling (n + m) s = State.runCeiling m (State.runCeiling n s) := by
  induction n generalizing s with
  | zero => rw [Nat.zero_add, State.runCeiling]
  | succ n ih =>
    by_cases hnext : ∃ t, step s = .next t
    · obtain ⟨t, ht⟩ := hnext
      rw [Nat.succ_add, runCeiling_succ_of_next ht, runCeiling_succ_of_next ht, ih]
    · have hstay := runCeiling_of_no_next (not_exists.1 hnext)
      rw [hstay, hstay, hstay]

/-- A run still running under its ceiling has made every one of its steps. -/
theorem core_run_eq_runCeiling (n : Nat) (hc : s.cfg.wf = true) (hr : (State.runCeiling n s).status = .running) :
    core.run n s = .next (State.runCeiling n s) := by
  induction n generalizing s with
  | zero => rfl
  | succ n ih =>
    have hs : s.status = .running := by
      by_contra hs
      rw [runCeiling_of_not_running hs] at hr
      exact hs hr
    obtain ⟨t, ht⟩ := step_next_of_running hs hc
    have hcfg : t.cfg = s.cfg := (stepKeepsProgramAndConfiguration s t ht).1
    rw [runCeiling_succ_of_next ht] at hr ⊢
    exact (run_succ_of_next (M := core) ht n).trans (ih (hcfg ▸ hc) hr)

/-- Settles O52: by induction on the ceiling a running core has made all its steps; a higher ceiling goes on from where
the lower one stopped, which is a terminal state. -/
theorem ceilingStopsBetweenSteps : Obligations.CeilingStopsBetweenSteps := by
  intro s n hc
  refine ⟨core_run_eq_runCeiling n hc, fun hs m => ?_⟩
  rw [runCeiling_add, runCeiling_of_not_running hs]

/-! #### The snapshots (R133 to R135) -/

theorem isHalted_iff : s.isHalted = true ↔ s.status = .halted := beq_iff_eq

theorem length_snapshotRegs (s : State) : s.snapshotRegs.length = s.cfg.numRegs := by
  simp [State.snapshotRegs]

theorem getElem?_snapshotRegs {i : Nat} (hi : i < s.cfg.numRegs) : s.snapshotRegs[i]? = some (sint (readReg s i)) := by
  simp [State.snapshotRegs, hi]

theorem length_snapshotMem (s : State) : s.snapshotMem.length = s.cfg.memWords := by
  simp [State.snapshotMem]

theorem getElem?_snapshotMem {w : Nat} (hw : w < s.cfg.memWords) : s.snapshotMem[w]? = some (s.mem.read w) := by
  simp [State.snapshotMem, State.snapshotWord, hw]

theorem errorReport_eq_some_iff {r : ErrorRecord} : s.errorReport = some r ↔ s.status = .error r := by
  rw [State.errorReport]
  cases s.status with
  | running => simp
  | halted => simp
  | error r' => simp

/-- Settles O53: each port reports its own part of the state. -/
theorem snapshotsReportTheState : Obligations.SnapshotsReportTheState := fun s =>
  ⟨isHalted_iff, rfl, length_snapshotRegs s, fun _ => getElem?_snapshotRegs, length_snapshotMem s,
    fun _ => getElem?_snapshotMem, fun _ => errorReport_eq_some_iff⟩

end Sys2Proof.Machine
end
